-- ==== Sys2Proof/Word.lean ====
section
/-! DEFINITION. The value types of the machine. A memory cell's value is a signed integer (10_state.md R12) and its
type is Int; the width `CELL_W` is a parameter (`Config.cellW`), and `fitsCell` says which integers a cell of a
width holds. Assumption log entry 2. -/

namespace Sys2Proof

/-- One byte, 0 to 255: what `push` takes, the ring buffer holds and OUT emits. -/
abbrev Byte := BitVec 8

/-- `v` fits a two's complement cell of `w` bits (R12). -/
abbrev fitsCell (w : Nat) (v : Int) : Prop := -(2 ^ (w - 1)) ≤ v ∧ v < 2 ^ (w - 1)

end Sys2Proof
end

