-- ==== Sys2Proof/Config.lean ====
section
/-! DEFINITION. The numbers the source fixes, the parameters it leaves to an implementation (00_scope.md R3), and
the input the machine does not choose (R5). -/

namespace Sys2Proof

/-- `MEMSIZE`, 2^24 cells (R3). -/
abbrev memSize : Nat := 16777216

/-- `SENT_IO` = 0xFFFFFF: console write in `b`, keyboard read in `a`, halt in `c`, and "no data" (R3). -/
abbrev sentIO : Nat := 0xFFFFFF

/-- `SENT_IRQ` = 0xFFFFFE: interrupt check in `a` (R3). -/
abbrev sentIRQ : Nat := 0xFFFFFE

/-- `INT_BYTE` = 3 (R3). -/
def intByte : Byte := 3

/-- `TABLE_LEN` = 256 cells (R3). -/
abbrev tableLen : Nat := 256

/-- The parameters of R3 that the source does not fix. They are a field of State that no step writes, so that
a statement about every state is a statement about every choice of them. Assumption log entries 3 and 4. -/
structure Config where
  /-- `TABLE_BASE`, OPEN (D2). -/
  tableBase : Nat
  /-- `KBUF_CAP`, OPEN (D4). -/
  kbufCap : Nat
  /-- `CELL_W`, default 32 (D1). -/
  cellW : Nat
  /-- `INT_THRESHOLD`, default 3 (D5). -/
  intThreshold : Nat
  /-- `NEG_OPERAND_FAULT`, default true (D6). -/
  negOperandFault : Bool
  /-- `WRITE_PROTECT`, default true (D7). -/
  writeProtect : Bool
  deriving DecidableEq, Repr

/-- The constraints R3 puts on the parameters: 0 < `TABLE_BASE` ≤ 2^24 − 256, `KBUF_CAP` at least 2,
`CELL_W` at least 25. -/
abbrev Config.wf (cfg : Config) : Prop :=
  0 < cfg.tableBase ∧ cfg.tableBase + tableLen ≤ memSize ∧ 2 ≤ cfg.kbufCap ∧ 25 ≤ cfg.cellW

/-- The defaults of R3 (reference variant) with the illustration values of the spec's vectors for the two
OPEN parameters, `TABLE_BASE` = 0xFFFF00 and `KBUF_CAP` = 8. DESIGN CHOICE, unsafe: entries 3 and 4. -/
def Config.reference : Config where
  tableBase := 0xFFFF00
  kbufCap := 8
  cellW := 32
  intThreshold := 3
  negOperandFault := true
  writeProtect := true

/-- Which agent takes a step (R4, R5): the engine, or the capture path with the byte the outside world delivers. -/
inductive Turn where
  | engine
  | capture (byte : Byte)
  deriving DecidableEq, Repr

/-- The bytes the outside world delivers, in order, before the next engine cycle, when it is asked for the `n`-th
time. A free value, without a body: no proof can tell what it is, so whatever is proved holds for every sequence of
bytes and every interleaving of pushes and cycles in which the engine keeps its turns (R5). There may be no byte or any
number, but not endlessly many, since the engine eventually steps (R155). Assumption log entries 7 and 27. -/
opaque Config.freeInput : Nat → List Byte

end Sys2Proof
end

