-- ==== Sys2Proof/Syntax.lean ====
section
/-! DEFINITION. The instruction triple and the four instruction forms (30_encoding.md R50, R53). -/

namespace Sys2Proof

/-- The three cells of an instruction, format T3 (R50). -/
structure Triple where
  a : Int
  b : Int
  c : Int
  deriving DecidableEq, Repr

/-- The instruction forms of R53, in priority order. -/
inductive Form where
  | out
  | inp
  | irq
  | subleq
  deriving DecidableEq, Repr

/-- A decoded instruction: one constructor per row of opcode_table.json. `a` and `b` are cell addresses; `c` is
the whole signed cell. The port forms keep the `c` they ignore (R57), so that encoding loses no bit
(assumption log entry 19). -/
inductive Instr where
  /-- OUT `a` (42_io_ports.md R90); `b` is the sentinel. -/
  | out (a : Nat) (c : Int)
  /-- IN `b` (R92); `a` is the sentinel 0xFFFFFF. -/
  | inp (b : Nat) (c : Int)
  /-- IRQ `b` (R94); `a` is the sentinel 0xFFFFFE. -/
  | irq (b : Nat) (c : Int)
  /-- SUBLEQ `a, b, c` (41_subleq.md R82). -/
  | subleq (a b : Nat) (c : Int)
  deriving DecidableEq, Repr

/-- The form an instruction belongs to. -/
def Instr.form : Instr → Form
  | .out _ _ => .out
  | .inp _ _ => .inp
  | .irq _ _ => .irq
  | .subleq _ _ _ => .subleq

end Sys2Proof
end

