-- ==== Sys2Proof/WellFormed.lean ====
section
/-! DEFINITION. Which instructions some triple of cells encodes: operand ranges and the sentinel positions
(R53 to R56). -/

namespace Sys2Proof

/-- The operand names a cell of memory (20_memory.md R33). -/
def addrInRange (x : Nat) : Bool := decide (x < memSize)

/-- The value of `b` does not select the console-write port (R53 priority 1). -/
def notOutPort (b : Nat) : Bool := decide (b ≠ sentIO)

/-- The value of `a` selects neither the keyboard-read nor the interrupt-check port (R53 priorities 2, 3). -/
def notReadPort (a : Nat) : Bool := decide (a ≠ sentIO) && decide (a ≠ sentIRQ)

/-- Well-formedness: addresses in range, and no sentinel where it would select another form (R55). The field
`c` may hold any cell value (R57). -/
def Instr.wellFormed : Instr → Bool
  | .out a _ => addrInRange a
  | .inp b _ => addrInRange b && notOutPort b
  | .irq b _ => addrInRange b && notOutPort b
  | .subleq a b _ => addrInRange a && addrInRange b && notOutPort b && notReadPort a

end Sys2Proof
end

