-- ==== Sys2Proof/Decode.lean ====
section
/-! DEFINITION. The decoder: operand range checks, the I/O demultiplexer, the encoder, and the opcode table's
72-bit word (30_encoding.md R50 to R57, 40_cycle.md R70, R71). -/

namespace Sys2Proof

/-- Why a triple decodes to no instruction: the operand checks of step 3 of the cycle (R70, R71), each by the
name of its fault cause (R116). -/
inductive Reject where
  | aHigh
  | bHigh
  | aNeg
  | bNeg
  deriving DecidableEq, Repr

/-- The I/O demultiplexer: the priority test of R53 on operands that have passed the range checks. -/
def selectForm (a b : Nat) : Form :=
  if b = sentIO then .out
  else if a = sentIO then .inp
  else if a = sentIRQ then .irq
  else .subleq

/-- The instruction of a form. -/
def assemble (f : Form) (a b : Nat) (c : Int) : Instr :=
  match f with
  | .out => .out a c
  | .inp => .inp b c
  | .irq => .irq b c
  | .subleq => .subleq a b c

/-- Decode a triple, total on every three cells. The checks are made on whole signed values, in the order
`a` high, `b` high, `a` negative, `b` negative (R70, R71, 60_exceptions.md R120), before the sentinel
tests (R56). -/
def decode (t : Triple) : Except Reject Instr :=
  if (memSize : Int) ≤ t.a then .error .aHigh
  else if (memSize : Int) ≤ t.b then .error .bHigh
  else if t.a < 0 then .error .aNeg
  else if t.b < 0 then .error .bNeg
  else .ok (assemble (selectForm t.a.toNat t.b.toNat) t.a.toNat t.b.toNat t.c)

/-- The encoder: the three cells of an instruction, from the opcode map of R53 and the fields of R50. -/
def encode : Instr → Triple
  | .out a c => ⟨(a : Int), (sentIO : Int), c⟩
  | .inp b c => ⟨(sentIO : Int), (b : Int), c⟩
  | .irq b c => ⟨(sentIRQ : Int), (b : Int), c⟩
  | .subleq a b c => ⟨(a : Int), (b : Int), c⟩

/-- The low 24-bit field of a table word that starts at bit `lo`. -/
def wordField (w lo : Nat) : Nat := w / 2 ^ lo % memSize

/-- The triple of a table word: `a` is W[71:48], `b` is W[47:24], `c` is W[23:0] (R52), each a non-negative
cell value. Assumption log entry 17. -/
def tripleOfTableWord (nbits w : Nat) : Triple :=
  let v := w % 2 ^ nbits
  ⟨(wordField v 48 : Int), (wordField v 24 : Int), (wordField v 0 : Int)⟩

/-- The instruction the decoder reads from a table word (bits numbered as opcode_table.json numbers them). -/
def decodeTableWord (nbits w : Nat) : Option Instr :=
  match decode (tripleOfTableWord nbits w) with
  | .ok i => some i
  | .error _ => none

/-- The table word of a triple, W = a[23:0] ‖ b[23:0] ‖ c[23:0] (R52). -/
def tableWordOfTriple (t : Triple) : Nat :=
  (t.a % (memSize : Int)).toNat * 2 ^ 48 + (t.b % (memSize : Int)).toNat * 2 ^ 24
    + (t.c % (memSize : Int)).toNat

/-- One row of the opcode table in mask and match form (R53). -/
structure OpcodeRow where
  form : Form
  mask : Nat
  bits : Nat
  deriving DecidableEq, Repr

/-- The opcode table, in priority order (R53, opcode_table.json). -/
def opcodeTable : List OpcodeRow :=
  [ ⟨.out, 0x000000FFFFFF000000, 0x000000FFFFFF000000⟩,
    ⟨.inp, 0xFFFFFF000000000000, 0xFFFFFF000000000000⟩,
    ⟨.irq, 0xFFFFFF000000000000, 0xFFFFFE000000000000⟩,
    ⟨.subleq, 0x000000000000000000, 0x000000000000000000⟩ ]

/-- The form of the first row of a table that a word matches. -/
def firstMatch (w : Nat) : List OpcodeRow → Option Form
  | [] => none
  | r :: rest => if w &&& r.mask = r.bits then some r.form else firstMatch w rest

end Sys2Proof
end

