-- ==== Sys2Proof/Machine/State.lean ====
section
/-! DEFINITION. The machine's state as plain data, its terminal outcomes, and the state after reset
(10_state.md R10 to R23, 70_reset_and_hazards.md R135). -/

namespace Sys2Proof.Machine

/-- The engine's run state (R14). -/
inductive RunState where
  | running
  | halted
  | faulted
  | terminated
  deriving DecidableEq, Repr

/-- The fault causes (R15, 60_exceptions.md R116). -/
inductive Cause where
  | none
  | pcRange
  | fetchRange
  | aHigh
  | bHigh
  | aNeg
  | bNeg
  deriving DecidableEq, Repr

/-- Who takes the coming steps (00_scope.md R5): first the listed turns, soonest first, and after them the outside
world's free choice, `Config.freeInput`, for ever. Assumption log entry 7. -/
structure Schedule where
  /-- The turns that are settled. -/
  listed : List Turn
  /-- How often `Config.freeInput` has been asked for further turns; its argument. -/
  asked : Nat
  deriving DecidableEq, Repr

/-- Memory: the cells that differ from what an unlisted address reads as, by strictly rising address. The unit
is the spec's, one whole cell (20_memory.md R37, R42). Assumption log entry 1. -/
abbrev Memory := List (Nat × Int)

/-- Everything the spec gives the machine. -/
structure State where
  /-- The parameters of R3. The model's own field; no step writes it (entries 3, 4). -/
  cfg : Config
  /-- Memory (R12). -/
  mem : Memory
  /-- The program counter (R11), signed; its range is checked at the start of the next cycle. -/
  pc : Int
  /-- The engine's state (R14). -/
  run : RunState
  /-- Why `run` became FAULTED (R15). -/
  cause : Cause
  /-- Interrupt-requested (R16). -/
  irq : Bool
  /-- Terminate (R17). -/
  term : Bool
  /-- The consecutive-interrupt counter (R18). -/
  cnt : Nat
  /-- The slots of the keystroke ring buffer (R19). -/
  buf : List Byte
  /-- The write cursor (R19). -/
  head : Nat
  /-- The read cursor (R19). -/
  tail : Nat
  /-- The bytes emitted, oldest first (R20). -/
  out : List Byte
  /-- The input schedule: who takes the coming steps (R5). The model's own field (entry 7). -/
  turns : Schedule
  deriving DecidableEq, Repr

/-- Why no step, or no access, can be made. No fault of the spec is among these: those are next states with
`run` FAULTED and a `cause` (R115). -/
inductive Fault where
  /-- `step`, when `run` is HALTED: the run is over (R74). Safe: there is no next state. -/
  | runHalted
  /-- `step`, when `run` is FAULTED: the run is over (R74). Safe. -/
  | runFaulted
  /-- `step`, when `run` is TERMINATED: the run is over (R74). Safe. -/
  | runTerminated
  /-- `memRead` and `memWrite`, for an address at or above 2^24, which does not exist (20_memory.md R33). Only
  an ill-formed instruction given straight to `exec` reaches it; no step does (entry 9). Safe. -/
  | noSuchCell (addr : Nat)
  deriving DecidableEq, Repr

/-- Why the model gives no meaning. -/
inductive Refusal where
  /-- `exec`, for an instruction without a meaning yet. Safe. No arm uses it. -/
  | notModelled (mnemonic : String)
  /-- The cycle, for a negative `a` when `NEG_OPERAND_FAULT` is false: the spec says refuse
  (93_implementation_defined.md U1, R71). Safe (entry 10). -/
  | negativeA
  /-- The same for a negative `b` (U1, R71). Safe (entry 10). -/
  | negativeB
  deriving DecidableEq, Repr

/-- What a step or an instruction answers. -/
abbrev Result := Host.Outcome State Fault Refusal

/-- The state at release of reset with parameters `cfg` and boot memory `mem` (R135). `buf` is unspecified by
the spec; zeros are the model's choice (entry 6). No turn is listed, so the
outside world chooses them all (entry 7). -/
def State.atRelease (cfg : Config) (mem : Memory) : State where
  cfg := cfg
  mem := mem
  pc := 0
  run := .running
  cause := .none
  irq := false
  term := false
  cnt := 0
  buf := List.replicate cfg.kbufCap 0
  head := 0
  tail := 0
  out := []
  turns := ⟨[], 0⟩

/-- The machine right after reset, with the reference parameters (entries 3, 4) and the empty program image:
no cell is listed. -/
def State.reset : State := State.atRelease Config.reference []

end Sys2Proof.Machine
end

