-- ==== Sys2Proof/Machine/Operands.lean ====
section
/-! DEFINITION. How operand values are read: the narrowings between integers, cells and bytes (00_scope.md
section 5), the address decoder's classes (20_memory.md R32), and the cell an address holds when nothing is
listed for it (R31, R141). -/

namespace Sys2Proof.Machine

/-- `lo24(v)`: the floored modulus, in [0, 2^24) for negative `v` too. -/
def lo24 (v : Int) : Int := v % 16777216

/-- `sext_24(u)` for `u` in [0, 2^24): bit 23 set means subtract 2^24. -/
def sext24 (u : Int) : Int := if u < 8388608 then u else u - 16777216

/-- `lo8(v)` as a byte: the low 8 bits of the cell (R90). -/
def lo8 (v : Int) : Byte := BitVec.ofNat 8 (v % 256).toNat

/-- `zext_8(byte)`: the integer 0 to 255 (R92). -/
def zext8 (byte : Byte) : Int := (byte.toNat : Int)

/-- The "no data" value, the positive integer 16,777,215 (R92). -/
def noData : Int := (sentIO : Int)

/-- What IN stores for an answer of `pop`: the byte, or the no-data value for EMPTY (R92). -/
def inputCell : Option Byte → Int
  | some byte => zext8 byte
  | none => noData

/-- The classes of the memory address decoder (R32). -/
inductive AddrClass where
  | high
  | neg
  | ro
  | rw
  deriving DecidableEq, Repr

/-- The memory address decoder, on the full signed value (R32). -/
def classify (cfg : Config) (x : Int) : AddrClass :=
  if (memSize : Int) ≤ x then .high
  else if x < 0 then .neg
  else if (cfg.tableBase : Int) ≤ x then .ro
  else .rw

/-- What an address reads as when memory lists nothing for it: the identity table's entry, elsewhere zero
(R31, R141). -/
def unlistedCell (cfg : Config) (addr : Nat) : Int :=
  if cfg.tableBase ≤ addr ∧ addr < cfg.tableBase + tableLen then ((addr - cfg.tableBase : Nat) : Int) else 0

end Sys2Proof.Machine
end

