-- ==== Sys2Proof/Machine/Flags.lean ====
section
/-! DEFINITION. Every test and flag value of the machine. There are no condition codes (10_state.md R21): the
branch test keeps nothing, and the two flags are `irq` and `term`. -/

namespace Sys2Proof.Machine

/-- The branch multiplexer's test: the computed result is zero or negative (41_subleq.md R83). -/
def branchTaken (result : Int) : Bool := decide (result ≤ 0)

/-- `c` is the halt sentinel, compared at full cell width (30_encoding.md R54, R84). -/
def isHaltTarget (c : Int) : Bool := decide (c = (sentIO : Int))

/-- The value IRQ stores for the flag: the integer 0 or 1 (42_io_ports.md R94). -/
def flagCell (flag : Bool) : Int := if flag then 1 else 0

/-- The strict comparison that sets `term` (43_keystroke_capture.md R104). -/
def thresholdExceeded (cfg : Config) (cnt : Nat) : Bool := decide (cfg.intThreshold < cnt)

/-- A store to `addr` is discarded: write protection of the range at or above `TABLE_BASE` (20_memory.md
R35). -/
def writeDiscarded (cfg : Config) (addr : Nat) : Bool := cfg.writeProtect && decide (cfg.tableBase ≤ addr)

end Sys2Proof.Machine
end

