-- ==== Sys2Proof/Machine/Ops.lean ====
section
/-! DEFINITION. The named operations on memory, the program counter, the run state and the output that the
instructions share, and raising a fault. -/

namespace Sys2Proof.Machine

/-- The cell memory holds at an address: the listed one, else what an unlisted address reads as. -/
def Memory.read (cfg : Config) : Memory → Nat → Int
  | [], addr => unlistedCell cfg addr
  | (k, v) :: rest, addr => if k = addr then v else Memory.read cfg rest addr

/-- The entry that lists value `v` at `addr`, or none where `v` is what the address reads as anyway. -/
def memoryEntry (cfg : Config) (addr : Nat) (v : Int) : Memory :=
  if v = unlistedCell cfg addr then [] else [(addr, v)]

/-- Put `v` at `addr`, keeping the canonical form. -/
def Memory.write (cfg : Config) (addr : Nat) (v : Int) : Memory → Memory
  | [] => memoryEntry cfg addr v
  | (k, w) :: rest =>
    if addr < k then memoryEntry cfg addr v ++ (k, w) :: rest
    else if addr = k then memoryEntry cfg addr v ++ rest
    else (k, w) :: Memory.write cfg addr v rest

/-- The canonical form from address `lo` on: addresses strictly rise, lie inside memory, and no entry equals what
its address reads as unlisted. -/
def Memory.wfFrom (cfg : Config) : Nat → Memory → Bool
  | _, [] => true
  | lo, (k, v) :: rest =>
    decide (lo ≤ k) && decide (k < memSize) && decide (v ≠ unlistedCell cfg k) && Memory.wfFrom cfg (k + 1) rest

/-- The canonical form of memory. -/
def Memory.wf (cfg : Config) (m : Memory) : Bool := Memory.wfFrom cfg 0 m

/-- `mem[addr]` (20_memory.md R35, R37): a read has no side effect. -/
def State.cell (s : State) (addr : Nat) : Int := Memory.read s.cfg s.mem addr

/-- The write primitive's effect, `MemWrite` (R35): discarded in silence where write protection covers the
address. -/
def storeCell (addr : Nat) (v : Int) (s : State) : State :=
  if writeDiscarded s.cfg addr then s else { s with mem := Memory.write s.cfg addr v s.mem }

/-- `MemRead(addr, 1)`, which requires an address inside memory (R33, R35). -/
def memRead (addr : Nat) (s : State) (k : Int → Result) : Result :=
  if addr < memSize then k (s.cell addr) else .fault (.noSuchCell addr)

/-- `MemWrite(addr, 1, v)`, which requires an address inside memory (R33, R35). -/
def memWrite (addr : Nat) (v : Int) (s : State) (k : State → Result) : Result :=
  if addr < memSize then k (storeCell addr v s) else .fault (.noSuchCell addr)

/-- The program-counter sequencer: `pc <- pc + 3`, without wrap-around (41_subleq.md R85). -/
def advance (s : State) : State := { s with pc := s.pc + 3 }

/-- `pc <- c`, unchecked (R84). -/
def jump (c : Int) (s : State) : State := { s with pc := c }

/-- `halt`: `run <- HALTED`; `pc` keeps the address of the halting triple (R84). -/
def halt (s : State) : State := { s with run := .halted }

/-- The branch multiplexer: halt, jump or go on (R83 to R85). -/
def branch (result : Int) (c : Int) (s : State) : State :=
  if branchTaken result then (if isHaltTarget c then halt s else jump c s) else advance s

/-- `Emit(byte)`: append one byte to the output (10_state.md R20). -/
def emit (byte : Byte) (s : State) : State := { s with out := s.out ++ [byte] }

/-- `irq <- 0` (42_io_ports.md R92, R94). -/
def clearIrq (s : State) : State := { s with irq := false }

/-- `raise Fault(cause)` (60_exceptions.md R115): `cause` and `run` change and nothing else. There is no handler
and no saved state (R121), and no return from a fault exists (R122): only reset leaves FAULTED. -/
def raiseFault (cause : Cause) (s : State) : State := { s with run := .faulted, cause := cause }

/-- `run <- TERMINATED` (40_cycle.md R66). -/
def terminate (s : State) : State := { s with run := .terminated }

end Sys2Proof.Machine
end

