-- ==== Sys2Proof/Machine/Capture.lean ====
section
/-! DEFINITION. The keystroke ring buffer and its two operations: `push`, the step of the CAPTURE agent, and
`pop`, used by IN (43_keystroke_capture.md R100 to R112). -/

namespace Sys2Proof.Machine

/-- A cursor moved on by one slot, modulo the capacity (R106, R107). -/
def nextSlot (cfg : Config) (i : Nat) : Nat := (i + 1) % cfg.kbufCap

/-- The first half of `push`: the interrupt byte sets `irq`, empties the buffer and counts (R103, R104); any
other byte resets the count (R105). -/
def noteByte (byte : Byte) (s : State) : State :=
  if byte = intByte then
    { s with irq := true, head := 0, tail := 0, cnt := s.cnt + 1,
             term := s.term || thresholdExceeded s.cfg (s.cnt + 1) }
  else { s with cnt := 0 }

/-- The append, without a check for a full buffer; none when terminating (R106, R109). -/
def appendByte (byte : Byte) (s : State) : State :=
  if s.term then s else { s with buf := s.buf.set s.head byte, head := nextSlot s.cfg s.head }

/-- `push(byte)`, whole and atomic (R101): nothing when `term` is set on entry (R102). -/
def push (byte : Byte) (s : State) : State :=
  if s.term then s else appendByte byte (noteByte byte s)

/-- `pop()` (R107): `none` is the answer EMPTY. -/
def pop (s : State) : Option Byte × State :=
  if s.head = s.tail then (none, s)
  else (some (s.buf.getD s.tail 0), { s with tail := nextSlot s.cfg s.tail })

/-- The number of visible bytes, `(head − tail) mod KBUF_CAP` (10_state.md R19). -/
def occupancy (s : State) : Nat := (s.head + s.cfg.kbufCap - s.tail) % s.cfg.kbufCap

/-- The queue's visible content: the bytes from `tail` up to but not including `head` (R19). -/
def visible (s : State) : List Byte :=
  (List.range (occupancy s)).map fun i => s.buf.getD ((s.tail + i) % s.cfg.kbufCap) 0

end Sys2Proof.Machine
end

