-- ==== Sys2Proof/Machine/Ports.lean ====
section
/-! DEFINITION. The memory-mapped port forms OUT, IN and IRQ (42_io_ports.md R90 to R95). None of them
subtracts, branches or uses `c` (R57, 40_cycle.md R72). -/

namespace Sys2Proof.Machine

/-- OUT `a` (R90): emit the low byte of the cell. -/
def execOut (a : Nat) (_c : Int) (s : State) : Result :=
  memRead a s fun v => .next (advance (emit (lo8 v) s))

/-- IN `b` (R92): clear `irq`, pop, store the byte or the no-data value. The pop stands even where the store is
discarded. -/
def execInp (b : Nat) (_c : Int) (s : State) : Result :=
  let popped := pop (clearIrq s)
  memWrite b (inputCell popped.1) popped.2 fun s' => .next (advance s')

/-- IRQ `b` (R94): store the flag, then clear it, in one atomic cycle. -/
def execIrq (b : Nat) (_c : Int) (s : State) : Result :=
  memWrite b (flagCell s.irq) s fun s' => .next (advance (clearIrq s'))

end Sys2Proof.Machine
end

