-- ==== Sys2Proof/Machine/Subleq.lean ====
section
/-! DEFINITION. The 24-bit wraparound subtractor and the SUBLEQ instruction (41_subleq.md R80 to R89). -/

namespace Sys2Proof.Machine

/-- `sub_wrapped(x, y) = sext_24(lo24(x − y))` (R80), for all integers. -/
def subWrapped (x y : Int) : Int := sext24 (lo24 (x - y))

/-- SUBLEQ `a, b, c` (R82): both reads come before the write (R39); the branch tests the computed result even
where the store is discarded (R83, R89). -/
def execSubleq (a b : Nat) (c : Int) (s : State) : Result :=
  memRead a s fun ra =>
  memRead b s fun rb =>
  memWrite b (subWrapped rb ra) s fun s' =>
  .next (branch (subWrapped rb ra) c s')

end Sys2Proof.Machine
end

