-- ==== Sys2Proof/Machine/Dispatch.lean ====
section
/-! DEFINITION. The meaning of each instruction, by its constructor (40_cycle.md R72). -/

namespace Sys2Proof.Machine

def exec (i : Instr) (s : State) : Host.Outcome State Fault Refusal :=
  match i with
  | .out a c => Sys2Proof.Machine.execOut a c s
  | .inp b c => Sys2Proof.Machine.execInp b c s
  | .irq b c => Sys2Proof.Machine.execIrq b c s
  | .subleq a b c => Sys2Proof.Machine.execSubleq a b c s

end Sys2Proof.Machine
end

