-- ==== Sys2Proof/Machine/Cycle.lean ====
section
/-! DEFINITION. The instruction cycle up to the dispatch: terminate check, `pc` check, fetch, operand checks
(40_cycle.md R65 to R71), the order of the two agents (00_scope.md R5), and placing a triple where the next
cycle fetches it. -/

namespace Sys2Proof.Machine

/-- The fetch: the three cells from `pc` on, as memory stands at the start of the cycle (R68, R69). Called only
when `0 ≤ pc ≤ 2^24 − 3`. -/
def fetch (s : State) : Triple :=
  ⟨s.cell s.pc.toNat, s.cell (s.pc.toNat + 1), s.cell (s.pc.toNat + 2)⟩

/-- Step 1: the `pc` lies outside [0, 2^24) (R67). -/
def pcOutOfRange (s : State) : Bool := decide (s.pc < 0) || decide ((memSize : Int) ≤ s.pc)

/-- Step 2: the triple's last cell lies at or above 2^24 (R68). -/
def fetchOutOfRange (s : State) : Bool := decide ((memSize : Int) ≤ s.pc + 2)

/-- A cycle whose operand checks reject the triple (R70, R71): it faults with the cause of the check; a negative
operand without `NEG_OPERAND_FAULT` has no meaning and is refused (U1, D28). -/
def rejected (r : Reject) (s : State) : Result :=
  match r with
  | .aHigh => .next (raiseFault .aHigh s)
  | .bHigh => .next (raiseFault .bHigh s)
  | .aNeg => if s.cfg.negOperandFault then .next (raiseFault .aNeg s) else .refused .negativeA
  | .bNeg => if s.cfg.negOperandFault then .next (raiseFault .bNeg s) else .refused .negativeB

/-- Steps T and 1 to 3 of the cycle, in the order of R65 and R120: the instruction to perform, or how the cycle
ends before any is performed. -/
def issue (s : State) : Except Result Instr :=
  if s.term then .error (.next (terminate s))
  else if pcOutOfRange s then .error (.next (raiseFault .pcRange s))
  else if fetchOutOfRange s then .error (.next (raiseFault .fetchRange s))
  else
    match decode (fetch s) with
    | .ok i => .ok i
    | .error r => .error (rejected r s)

/-- One step of the ENGINE agent: one instruction cycle (R65). Requires `run = RUNNING`. -/
def engineCycle (s : State) : Result :=
  match issue s with
  | .ok i => exec i s
  | .error ended => ended

/-- One step of the CAPTURE agent: one `push` (R100). -/
def captureStep (byte : Byte) (s : State) : Result := .next (push byte s)

/-- The turns up to and with the next engine cycle when the outside world chooses freely: a push of each byte it
delivers before the cycle, then the cycle (R5, 70_reset_and_hazards.md R155). -/
def freeTurns (n : Nat) : List Turn := (Config.freeInput n).map Turn.capture ++ [.engine]

/-- The schedule with a coming turn listed: where none is, the outside world is asked (R5). -/
def Schedule.settle (turns : Schedule) : Schedule :=
  match turns.listed with
  | [] => ⟨freeTurns turns.asked, turns.asked + 1⟩
  | _ :: _ => turns

/-- The coming turn. A settled schedule lists one, so the default stands for nothing. -/
def Schedule.next (turns : Schedule) : Turn := turns.settle.listed.headD .engine

/-- The schedule once the coming turn is taken. -/
def Schedule.rest (turns : Schedule) : Schedule := { turns.settle with listed := turns.settle.listed.tail }

/-- Whose turn it is (R5). -/
def nextTurn (s : State) : Turn := s.turns.next

/-- The state with the coming turn taken off the schedule. -/
def dropTurn (s : State) : State := { s with turns := s.turns.rest }

/-- The step of a machine whose run is not over: the agent whose turn it is acts, whole (R5, R44). -/
def agentStep (s : State) : Result :=
  match nextTurn s with
  | .engine => engineCycle (dropTurn s)
  | .capture byte => captureStep byte (dropTurn s)

/-- The state made ready to fetch: running, not terminating, `pc` at a triple inside memory, the engine's turn listed
next. Where `s` is so already, nothing changes. -/
def readyToFetch (s : State) : State :=
  { s with
    run := .running
    cause := .none
    term := false
    cnt := if s.term then 0 else s.cnt
    pc := if pcOutOfRange s || fetchOutOfRange s then 0 else s.pc
    turns := if s.turns.listed.head? = some .engine then s.turns
      else { s.turns with listed := .engine :: s.turns.listed } }

/-- The host's write of one cell while it owns the memory port: not subject to write protection (20_memory.md
R40, 70_reset_and_hazards.md R141). -/
def hostStore (addr : Nat) (v : Int) (s : State) : State :=
  { s with mem := Memory.write s.cfg addr v s.mem }

/-- A triple put at the program counter. -/
def placeTriple (t : Triple) (s : State) : State :=
  hostStore (s.pc.toNat + 2) t.c (hostStore (s.pc.toNat + 1) t.b (hostStore s.pc.toNat t.a s))

end Sys2Proof.Machine
end

