-- ==== Sys2Proof/Machine/Step.lean ====
section
/-! DEFINITION. One step of the machine: of whichever agent moves next (00_scope.md R5). -/

namespace Sys2Proof.Machine

/-- One step. While `run` is RUNNING the agent whose turn it is acts; once `run` is terminal no agent steps
(40_cycle.md R74). -/
def step (s : State) : Host.Outcome State Fault Refusal :=
  match s.run with
  | .running => agentStep s
  | .halted => .fault .runHalted
  | .faulted => .fault .runFaulted
  | .terminated => .fault .runTerminated

/-- The state with the instruction of a table word stored where the next step fetches it, made ready so that
the very next step runs it. Assumption log entries 16 and 17. -/
def State.withFetchWord (s : State) (nbits w : Nat) : State :=
  placeTriple (tripleOfTableWord nbits w) (readyToFetch s)

end Sys2Proof.Machine
end

