-- ==== Sys2Proof/Machine/Arbiter.lean ====
section
/-! DEFINITION. The memory port as the arbiter drives it: the accesses of one cycle, in order (20_memory.md R38,
R39). An observer's view; no step reads it. Assumption log entry 20. -/

namespace Sys2Proof.Machine

/-- One access on the memory port: one cell read, or one cell write presented (R37). -/
inductive Access where
  | read (addr : Nat)
  | write (addr : Nat) (value : Int)
  deriving DecidableEq, Repr

/-- The addresses a form reads after the fetch (R38). -/
def operandReads : Instr → List Nat
  | .out a _ => [a]
  | .inp _ _ => []
  | .irq _ _ => []
  | .subleq a b _ => [a, b]

/-- The address a form stores to (R38). -/
def storeTarget : Instr → Option Nat
  | .out _ _ => none
  | .inp b _ => some b
  | .irq b _ => some b
  | .subleq _ b _ => some b

/-- The value a form presents for its store. -/
def storeValue (i : Instr) (s : State) : Int :=
  match i with
  | .out _ _ => 0
  | .inp _ _ => inputCell (pop s).1
  | .irq _ _ => flagCell s.irq
  | .subleq a b _ => subWrapped (s.cell b) (s.cell a)

/-- A form's own accesses: its reads, then its write (R39). -/
def formAccesses (i : Instr) (s : State) : List Access :=
  (operandReads i).map Access.read ++ (storeTarget i).toList.map fun b => Access.write b (storeValue i s)

/-- The fetch's reads at `pc` (R38). -/
def fetchReads (s : State) : List Nat := [s.pc.toNat, s.pc.toNat + 1, s.pc.toNat + 2]

/-- The accesses of a cycle, in the order of R39: none when it terminates or the `pc` is bad (R66 to R68), the
fetch alone when an operand check ends it, else the fetch and the form's own. -/
def cycleAccesses (s : State) : List Access :=
  if s.term || pcOutOfRange s || fetchOutOfRange s then []
  else (fetchReads s).map Access.read ++
    match decode (fetch s) with
    | .ok i => formAccesses i s
    | .error _ => []

end Sys2Proof.Machine
end

