-- ==== Sys2Proof/Machine/Boot.lean ====
section
/-! DEFINITION. The reset and load interface: what the host writes to memory while it holds reset, and the state
at release (70_reset_and_hazards.md R135, R140 to R142). -/

namespace Sys2Proof.Machine

/-- Why a launch is given no meaning. -/
inductive LaunchRefusal where
  /-- The parameters break a constraint of R3. -/
  | badParameters
  /-- The image is longer than `TABLE_BASE` (R142, U4). -/
  | imageReachesTable
  /-- A token does not fit a cell of `CELL_W` bits (R141, D17, U5). -/
  | tokenDoesNotFit
  /-- The image text has no header line (60_exceptions.md R117 (c)). -/
  | noHeader
  /-- A token of the image text is not an unsigned, unprefixed hexadecimal numeral (30_encoding.md R60, U5). -/
  | badToken
  deriving DecidableEq, Repr

/-- The memory that lists an image from address `k` on, in canonical form. -/
def imageMemory (cfg : Config) : Nat → List Int → Memory
  | _, [] => []
  | k, t :: ts => memoryEntry cfg k t ++ imageMemory cfg (k + 1) ts

/-- Reset held, memory written with the image, reset released (R135, R140, R141); refused where the spec gives
the launch no meaning (R142, D17). -/
def boot (cfg : Config) (image : List Int) : Except LaunchRefusal State :=
  if ¬ cfg.wf then .error .badParameters
  else if cfg.tableBase < image.length then .error .imageReachesTable
  else if ¬ (∀ t ∈ image, fitsCell cfg.cellW t) then .error .tokenDoesNotFit
  else .ok (State.atRelease cfg (imageMemory cfg 0 image))

/-- Reset of a machine in any state, the only way out of a terminal `run` (R135, R122): its parameters stay, and so
does the schedule. The spec says nothing of bytes still to come across a reset; that the outside world's input goes on
where it stood, none lost and none repeated, is a DESIGN CHOICE, entry 28. -/
def hostReset (s : State) (image : List Int) : Except LaunchRefusal State :=
  match boot s.cfg image with
  | .ok released => .ok { released with turns := s.turns }
  | .error refusal => .error refusal

end Sys2Proof.Machine
end

