-- ==== Sys2Proof/Machine/Image.lean ====
section
/-! DEFINITION. The program image's text format (30_encoding.md R60): an ignored first line, then hexadecimal
tokens separated by white space, loaded from address 0. Host software outside CORE; it is here because its
result is the boot memory. Assumption log entry 18. -/

namespace Sys2Proof.Machine

/-- The value of a hexadecimal digit of either case. -/
def hexDigit (ch : Char) : Option Nat :=
  let n := ch.toNat
  if 48 ≤ n ∧ n ≤ 57 then some (n - 48)
  else if 65 ≤ n ∧ n ≤ 70 then some (n - 55)
  else if 97 ≤ n ∧ n ≤ 102 then some (n - 87)
  else none

/-- The white space between tokens: space, and the control characters 9 to 13. -/
def isBlank (ch : Char) : Bool := ch.toNat == 32 || (decide (9 ≤ ch.toNat) && decide (ch.toNat ≤ 13))

/-- The numeral that continues the value `acc`, most significant digit first (R42, R60). -/
def hexValue : Nat → List Char → Option Nat
  | acc, [] => some acc
  | acc, ch :: rest =>
    match hexDigit ch with
    | some d => hexValue (16 * acc + d) rest
    | none => none

/-- The text after the first line. -/
def afterHeader : List Char → List Char
  | [] => []
  | ch :: rest => if ch.toNat = 10 then rest else afterHeader rest

/-- The tokens of a text; `word` is the token being read. -/
def splitTokens : List Char → List Char → List (List Char)
  | word, [] => if word.isEmpty then [] else [word]
  | word, ch :: rest =>
    if isBlank ch then
      (if word.isEmpty then splitTokens [] rest else word :: splitTokens [] rest)
    else splitTokens (word ++ [ch]) rest

/-- The values of a list of tokens, refused at the first that is no hexadecimal numeral. -/
def tokenValues : List (List Char) → Except LaunchRefusal (List Int)
  | [] => .ok []
  | tok :: rest =>
    match hexValue 0 tok, tokenValues rest with
    | some v, .ok vs => .ok ((v : Int) :: vs)
    | none, _ => .error .badToken
    | _, .error e => .error e

/-- The cell values an image text denotes (R60). -/
def parseImage (text : List Char) : Except LaunchRefusal (List Int) :=
  if text.isEmpty then .error .noHeader else tokenValues (splitTokens [] (afterHeader text))

/-- The launch of an image text. -/
def launch (cfg : Config) (text : List Char) : Except LaunchRefusal State :=
  match parseImage text with
  | .ok image => boot cfg image
  | .error e => .error e

end Sys2Proof.Machine
end

