-- ==== Sys2Proof/Machine/Status.lean ====
section
/-! DEFINITION. What the host sees (60_exceptions.md R127, 00_scope.md R6): the status outputs with their codes
(R14, R116), the output, and memory and `pc` after the run. -/

namespace Sys2Proof.Machine

/-- The 2-bit code of `run` (R14). -/
def runCode : RunState → BitVec 2
  | .running => 0
  | .halted => 1
  | .faulted => 2
  | .terminated => 3

/-- The 3-bit code of `cause` (R116). -/
def causeCode : Cause → BitVec 3
  | .none => 0
  | .pcRange => 1
  | .fetchRange => 2
  | .aHigh => 3
  | .bHigh => 4
  | .aNeg => 5
  | .bNeg => 6

/-- The host's view of the machine. -/
structure HostView where
  run : BitVec 2
  cause : BitVec 3
  out : List Byte
  /-- `pc` and memory, once the run is over. -/
  final : Option (Int × Memory)
  deriving DecidableEq, Repr

/-- What the host observes of a state (R127, R40). -/
def hostView (s : State) : HostView where
  run := runCode s.run
  cause := causeCode s.cause
  out := s.out
  final := if s.run = .running then none else some (s.pc, s.mem)

end Sys2Proof.Machine
end

