-- ==== Sys2Proof/Safety.lean ====
section
/-! DEFINITION. The words claims are stated in: the legal states, the engine's turn, sequences of buffer
operations, the coming turns, and states that agree on what a program can see. -/

namespace Sys2Proof.Machine

/-- A legal state: what every state of a run satisfies. -/
structure State.Inv (s : State) : Prop where
  /-- The parameters keep the constraints of R3. -/
  cfg_ok : s.cfg.wf
  /-- Memory is in canonical form. -/
  mem_ok : Memory.wf s.cfg s.mem = true
  /-- Every listed cell fits `CELL_W` bits (R12). -/
  cells_fit : ∀ e ∈ s.mem, fitsCell s.cfg.cellW e.2
  /-- `pc` fits a cell, or is the 2^24 that `pc + 3` gives at the top of memory (R11, R85). -/
  pc_ok : fitsCell s.cfg.cellW s.pc ∨ s.pc = (memSize : Int)
  /-- The buffer has `KBUF_CAP` slots (R19). -/
  buf_len : s.buf.length = s.cfg.kbufCap
  /-- The cursors stay in range (R19). -/
  head_lt : s.head < s.cfg.kbufCap
  tail_lt : s.tail < s.cfg.kbufCap
  /-- The bound of R18. -/
  cnt_le : s.cnt ≤ s.cfg.intThreshold + 1
  /-- `term` is set exactly when the count has exceeded the threshold (R104). -/
  term_iff : s.term = true ↔ s.cfg.intThreshold < s.cnt
  /-- The push that sets `term` leaves the buffer empty (R106) and `irq` set (R103). -/
  term_empty : s.term = true → s.head = 0 ∧ s.tail = 0 ∧ s.irq = true
  /-- `cause` records a fault exactly when there was one (R15). -/
  cause_iff : s.cause ≠ .none ↔ s.run = .faulted
  /-- Only the terminate flag ends a run as TERMINATED, and a machine with `term` set does not halt or fault (R66). -/
  term_run : (s.run = .terminated → s.term = true) ∧ (s.run = .halted ∨ s.run = .faulted → s.term = false)

/-- The next step is an engine cycle: the machine runs and it is the engine's turn. -/
def engineNext (s : State) : Prop := s.run = .running ∧ nextTurn s = .engine

/-- The next step performs the instruction `i`: it is an engine cycle that no check ends. -/
def performs (s : State) (i : Instr) : Prop := engineNext s ∧ issue (dropTurn s) = .ok i

/-- `n` steps, stopping where a step answers no next state. -/
def runFor : Nat → State → Result
  | 0, s => .next s
  | n + 1, s =>
    match step s with
    | .next t => runFor n t
    | .fault r => .fault r
    | .refused r => .refused r

/-- A series of pushes with nothing between them. -/
def pushAll : List Byte → State → State
  | [], s => s
  | byte :: rest, s => pushAll rest (push byte s)

/-- An operation on the ring buffer. -/
inductive QueueOp where
  | push (byte : Byte)
  | pop
  deriving DecidableEq, Repr

/-- The machine's buffer under a series of operations: the answers of the pops, and the state. -/
def runQueue : List QueueOp → State → List (Option Byte) × State
  | [], s => ([], s)
  | .push byte :: ops, s => runQueue ops (push byte s)
  | .pop :: ops, s => ((pop s).1 :: (runQueue ops (pop s).2).1, (runQueue ops (pop s).2).2)

/-- A plain first-in first-out queue under the same operations; `none` when more than `limit` bytes are ever
unread (the bound of R108). -/
def runFifo (limit : Nat) : List QueueOp → List Byte → Option (List (Option Byte) × List Byte)
  | [], q => some ([], q)
  | .push byte :: ops, q => if q.length < limit then runFifo limit ops (q ++ [byte]) else none
  | .pop :: ops, [] => (runFifo limit ops []).map fun r => (none :: r.1, r.2)
  | .pop :: ops, byte :: q => (runFifo limit ops q).map fun r => (some byte :: r.1, r.2)

/-- The operation pushes no interrupt byte. -/
def QueueOp.ordinary : QueueOp → Bool
  | .push byte => decide (byte ≠ intByte)
  | .pop => true

/-- `s` and `t` differ at most in slots of the buffer that no `pop` can return (R19, U2). -/
def sameButHiddenSlots (s t : State) : Prop :=
  t = { s with buf := t.buf } ∧ visible s = visible t

/-- The coming `n` turns, soonest first. -/
def upcoming : Nat → Schedule → List Turn
  | 0, _ => []
  | n + 1, turns => turns.next :: upcoming n turns.rest

/-- How many of the coming `n` turns deliver the interrupt byte. -/
def interruptsIn (n : Nat) (s : State) : Nat :=
  (upcoming n s.turns).countP fun t => decide (t = Turn.capture intByte)

/-- None of the coming `n` turns delivers another byte. -/
def onlyInterruptsIn (n : Nat) (s : State) : Bool :=
  (upcoming n s.turns).all fun t => decide (t = Turn.engine ∨ t = Turn.capture intByte)

end Sys2Proof.Machine
end

