-- ==== Sys2Proof/Certificates/Slice0/Obligations.lean ====
section
/-! DEFINITION. The statements about the model, for the provers. Each docstring names the rule it formalises. -/

open Sys2Proof Sys2Proof.Machine

/-! ## Encoding -/

/-- Every well-formed instruction, with every operand value, decodes from its encoding (R50, R51, R53, R57). -/
def Obligations.DecodeOfEncodeIsIdentity : Prop :=
  ∀ i : Instr, i.wellFormed = true → decode (encode i) = .ok i

/-- What the decoder accepts is well-formed and is the encoding of the answer: no bit of the three cells is dropped
and each triple has one meaning (R50, R51, R55). -/
def Obligations.EncodeOfDecodeIsIdentity : Prop :=
  ∀ (t : Triple) (i : Instr), decode t = .ok i → i.wellFormed = true ∧ encode i = t

/-- The form is chosen by R53's conditions in priority order, on whole cell values, and the mask and match table
tried in priority order over the table word chooses the same form. -/
def Obligations.FormChosenByPriority : Prop :=
  ∀ (a b c : Int), 0 ≤ a → a < 2 ^ 24 → 0 ≤ b → b < 2 ^ 24 →
    ∃ i, decode ⟨a, b, c⟩ = .ok i ∧
      i = (if b = 0xFFFFFF then .out a.toNat c
           else if a = 0xFFFFFF then .inp b.toNat c
           else if a = 0xFFFFFE then .irq b.toNat c
           else .subleq a.toNat b.toNat c) ∧
      firstMatch (tableWordOfTriple ⟨a, b, c⟩) opcodeTable = some i.form ∧
      opcodeTable =
        [⟨.out, 0x000000FFFFFF000000, 0x000000FFFFFF000000⟩, ⟨.inp, 0xFFFFFF000000000000, 0xFFFFFF000000000000⟩,
         ⟨.irq, 0xFFFFFF000000000000, 0xFFFFFE000000000000⟩, ⟨.subleq, 0, 0⟩]

/-- Every 72-bit table word decodes, to the form of the first table row it matches, and encodes back to itself
(R52, R53, R56). -/
def Obligations.TableWordsDecodeAndEncodeBack : Prop :=
  ∀ w : Nat, w < 2 ^ 72 →
    ∃ i, decodeTableWord 72 w = some i ∧ firstMatch w opcodeTable = some i.form ∧
      tableWordOfTriple (encode i) = w

/-- The encodings that do not execute are exactly those the range checks stop, whatever the other cells hold
(R56, R70, R71). The cause code chosen follows the order of R120. -/
def Obligations.OnlyOutOfRangeOperandsAreRejected : Prop :=
  ∀ t : Triple,
    ((∃ r, decode t = .error r) ↔ t.a < 0 ∨ 2 ^ 24 ≤ t.a ∨ t.b < 0 ∨ 2 ^ 24 ≤ t.b) ∧
    (2 ^ 24 ≤ t.a → decode t = .error .aHigh) ∧
    (t.a < 2 ^ 24 → 2 ^ 24 ≤ t.b → decode t = .error .bHigh) ∧
    (t.a < 0 → t.b < 2 ^ 24 → decode t = .error .aNeg) ∧
    (0 ≤ t.a → t.a < 2 ^ 24 → t.b < 0 → decode t = .error .bNeg)

/-- Words written out from the spec's layout decode to the instructions they stand for (95_test_vectors.md V40, V60,
V86, V95, V102, V104). -/
def Obligations.WrittenOutWordsDecode : Prop :=
  decodeTableWord 72 0x000000000000FFFFFF = some (.subleq 0 0 0xFFFFFF) ∧
  decodeTableWord 72 0x000003FFFFFF000000 = some (.out 3 0) ∧
  decodeTableWord 72 0xFFFFFF000009000000 = some (.inp 9 0) ∧
  decodeTableWord 72 0xFFFFFE000009000000 = some (.irq 9 0) ∧
  decodeTableWord 72 0xFFFFFFFFFFFF000000 = some (.out 0xFFFFFF 0) ∧
  decodeTableWord 72 0xFFFFFFFFFFFE000000 = some (.inp 0xFFFFFE 0)

/-! ## Reset and boot -/

/-- Memory after boot (R141): the image, zeros, the identity table, zeros. The table's contents are the spec's
decision D3. -/
def Obligations.BootMemoryHoldsImageAndTable : Prop :=
  ∀ (cfg : Config) (image : List Int), cfg.wf → image.length ≤ cfg.tableBase →
    (∀ t ∈ image, fitsCell cfg.cellW t) →
    ∃ s, boot cfg image = .ok s ∧
      (∀ (k : Nat) (h : k < image.length), s.cell k = image[k]) ∧
      (∀ k : Nat, image.length ≤ k → k < cfg.tableBase → s.cell k = 0) ∧
      (∀ i : Nat, i ≤ 255 → s.cell (cfg.tableBase + i) = i) ∧
      (∀ k : Nat, cfg.tableBase + 256 ≤ k → k < 2 ^ 24 → s.cell k = 0)

/-- The registers after reset (R135). The values of `cause`, `irq`, `term`, `cnt`, `head` and `tail` are the spec's
decisions D14 and D15 (entry 5); the length of `buf` is `KBUF_CAP`, its contents are not stated. -/
def Obligations.BootLeavesResetValues : Prop :=
  ∀ (cfg : Config) (image : List Int) (s : State), boot cfg image = .ok s →
    s.cfg = cfg ∧ s.pc = 0 ∧ s.run = .running ∧ s.cause = .none ∧ s.irq = false ∧ s.term = false ∧ s.cnt = 0 ∧
      s.head = 0 ∧ s.tail = 0 ∧ s.out = [] ∧ s.buf.length = cfg.kbufCap ∧ visible s = []

/-- Reset of a machine in any state, a terminal one included, gives the registers their reset values and memory its boot
contents, keeps the parameters, and leaves a legal state (R135, R140). The values of `cause`, `irq`, `term`, `cnt`,
`head` and `tail` are the spec's decisions D14 and D15 (entry 5); that the schedule of input goes on across the reset is
the model's choice (entry 28). -/
def Obligations.HostResetRestoresResetValues : Prop :=
  ∀ (s t : State) (image : List Int), hostReset s image = .ok t →
    t.Inv ∧ t.cfg = s.cfg ∧ (∃ u, boot s.cfg image = .ok u ∧ t.mem = u.mem) ∧
      t.pc = 0 ∧ t.run = .running ∧ t.cause = .none ∧ t.irq = false ∧ t.term = false ∧ t.cnt = 0 ∧
      t.head = 0 ∧ t.tail = 0 ∧ t.out = [] ∧ t.buf.length = s.cfg.kbufCap ∧ t.turns = s.turns

/-- A launch whose image is longer than `TABLE_BASE`, or holds a value that fits no cell, is refused (R142; the
spec's decision D17). -/
def Obligations.LaunchRefusedBeyondItsPremise : Prop :=
  ∀ (cfg : Config) (image : List Int), cfg.wf →
    (cfg.tableBase < image.length → boot cfg image = .error .imageReachesTable) ∧
    (image.length ≤ cfg.tableBase → (∃ t ∈ image, ¬ fitsCell cfg.cellW t) →
      boot cfg image = .error .tokenDoesNotFit)

/-- Every launch that is not refused starts in a legal state. -/
def Obligations.BootedStateIsLegal : Prop :=
  ∀ (cfg : Config) (image : List Int) (s : State), boot cfg image = .ok s → s.Inv

/-- The invariant holds at reset, and the reset state is the boot of the empty image with the model's reference
parameters (entries 3, 4). -/
def Obligations.ResetStateIsLegal : Prop :=
  State.reset.Inv ∧ boot Config.reference [] = .ok State.reset

/-- Token `k` of an image text becomes cell `k`, as the hexadecimal numeral it is (R60, R141). What counts as white
space and which digits are accepted is entry 18. -/
def Obligations.ImageTokensBecomeCells : Prop :=
  ∀ (cfg : Config) (text : List Char) (s : State), launch cfg text = .ok s →
    ∀ (k : Nat) (h : k < (splitTokens [] (afterHeader text)).length),
      ∃ v : Nat, hexValue 0 (splitTokens [] (afterHeader text))[k] = some v ∧ s.cell k = v

/-! ## The subtractor and the branch test -/

/-- `sub_wrapped` is the subtraction of the low 24 bits in a 24-bit two's complement subtractor (R80); 0 − 1 wraps
to −1, and the most negative value wraps to the most positive. -/
def Obligations.SubtractorIs24BitTwosComplement : Prop :=
  (∀ x y : Int, subWrapped x y = (BitVec.ofInt 24 x - BitVec.ofInt 24 y).toInt) ∧
    subWrapped 0 1 = -1 ∧ subWrapped 8388608 0 = -8388608 ∧ subWrapped (-8388608) 1 = 8388607

/-- The laws of R81, for all integers (the spec's decision D20): range, only the low 24 bits matter, congruence, exact when in range, and the
values at equal operands and at zero. -/
def Obligations.SubtractorLaws : Prop :=
  ∀ x y : Int,
    (-(2 ^ 23) ≤ subWrapped x y ∧ subWrapped x y ≤ 2 ^ 23 - 1) ∧
    subWrapped x y = subWrapped (x % 2 ^ 24) (y % 2 ^ 24) ∧
    (x - y - subWrapped x y) % 2 ^ 24 = 0 ∧
    (subWrapped x y = x - y ↔ -(2 ^ 23) ≤ x - y ∧ x - y ≤ 2 ^ 23 - 1) ∧
    subWrapped x x = 0 ∧
    (subWrapped x 0 = x ↔ -(2 ^ 23) ≤ x ∧ x ≤ 2 ^ 23 - 1)

/-- The branch is taken when bit 23 of the 24-bit difference is set or all 24 bits are zero (R83, whose test of the
computed result is the spec's decision D8). -/
def Obligations.BranchTestReadsTheDifference : Prop :=
  ∀ x y : Int,
    branchTaken (subWrapped x y) = true ↔
      (BitVec.ofInt 24 (x - y)).getLsbD 23 = true ∨ BitVec.ofInt 24 (x - y) = 0

/-! ## The four instructions: result, completion and frame -/

/-- SUBLEQ (R82): for every well-formed `a, b, c` it completes; the result is the integer of 24-bit two's complement
congruent to `mem[b] − mem[a]`; it is stored unless write-protected; the branch, the halt and `pc + 3` as the rule
says; every other register and every other cell is unchanged. Two clauses are the spec's decisions: the branch tests the
computed result where the store is discarded too, D8 (entry 12), and `pc` stays on halt, D22 (entry 25). -/
def Obligations.SubleqResult : Prop :=
  ∀ (s : State) (a b : Nat) (c : Int), (Instr.subleq a b c).wellFormed = true → Memory.wf s.cfg s.mem = true →
    ∃ (r : Int) (m : Memory),
      exec (.subleq a b c) s = .next { s with
        mem := m
        pc := if r ≤ 0 then (if c = 0xFFFFFF then s.pc else c) else s.pc + 3
        run := if r ≤ 0 ∧ c = 0xFFFFFF then .halted else s.run } ∧
      -(2 ^ 23) ≤ r ∧ r ≤ 2 ^ 23 - 1 ∧ (s.cell b - s.cell a - r) % 2 ^ 24 = 0 ∧
      ∀ x : Nat, Memory.read s.cfg m x =
        if x = b ∧ ¬ (s.cfg.writeProtect = true ∧ s.cfg.tableBase ≤ b) then r else s.cell x

/-- OUT (R90; the low 8 bits are the spec's decision D9): it completes for every address, appends exactly the low
byte of the cell, advances `pc` by 3 and changes nothing else. -/
def Obligations.OutResult : Prop :=
  ∀ (s : State) (a : Nat) (c : Int), (Instr.out a c).wellFormed = true →
    ∃ byte : Byte, (byte.toNat : Int) = s.cell a % 256 ∧
      exec (.out a c) s = .next { s with out := s.out ++ [byte], pc := s.pc + 3 }

/-- IN (R92; zero extension is D10, the discard of its store D7): `irq` is cleared, the oldest byte is popped and
stored as 0 to 255, or 16,777,215 is stored when the buffer is empty; `pc` advances by 3; nothing else changes. -/
def Obligations.InResult : Prop :=
  ∀ (s : State) (b : Nat) (c : Int), (Instr.inp b c).wellFormed = true → Memory.wf s.cfg s.mem = true →
    s.tail < s.buf.length →
    ∃ (v : Int) (m : Memory),
      exec (.inp b c) s = .next { s with
        irq := false
        tail := if s.head = s.tail then s.tail else (s.tail + 1) % s.cfg.kbufCap
        mem := m
        pc := s.pc + 3 } ∧
      (s.head = s.tail → v = 16777215) ∧
      (s.head ≠ s.tail → ∃ byte : Byte, s.buf[s.tail]? = some byte ∧ v = byte.toNat) ∧
      ∀ x : Nat, Memory.read s.cfg m x =
        if x = b ∧ ¬ (s.cfg.writeProtect = true ∧ s.cfg.tableBase ≤ b) then v else s.cell x

/-- IRQ (R94; the discard of its store is D7): the flag is stored as 0 or 1 and cleared, `pc` advances by 3, nothing
else changes; it does not pop. -/
def Obligations.IrqResult : Prop :=
  ∀ (s : State) (b : Nat) (c : Int), (Instr.irq b c).wellFormed = true → Memory.wf s.cfg s.mem = true →
    ∃ m : Memory,
      exec (.irq b c) s = .next { s with irq := false, mem := m, pc := s.pc + 3 } ∧
      ∀ x : Nat, Memory.read s.cfg m x =
        if x = b ∧ ¬ (s.cfg.writeProtect = true ∧ s.cfg.tableBase ≤ b) then (if s.irq = true then 1 else 0)
        else s.cell x

/-- The frame of every instruction (R111, R20, R18, R17): OUT, IN, IRQ and SUBLEQ leave `cfg`, `cause`, `term`, `cnt`,
`buf`, `head` and the schedule alone; only IN writes `tail`; only IN and IRQ write `irq`, and only to 0; only OUT
writes `out`; only SUBLEQ writes `run`, and only to HALTED. -/
def Obligations.InstructionRegisterFrame : Prop :=
  ∀ (i : Instr) (s t : State), exec i s = .next t →
    t.cfg = s.cfg ∧ t.cause = s.cause ∧ t.term = s.term ∧ t.cnt = s.cnt ∧ t.buf = s.buf ∧ t.head = s.head ∧
      t.turns = s.turns ∧
      (t.tail = s.tail ∨ i.form = .inp) ∧
      (t.irq = s.irq ∨ (t.irq = false ∧ (i.form = .inp ∨ i.form = .irq))) ∧
      (t.out = s.out ∨ (i.form = .out ∧ ∃ byte, t.out = s.out ++ [byte])) ∧
      (t.run = s.run ∨ (i.form = .subleq ∧ t.run = .halted))

/-- The memory frame of every instruction (R38; R35, whose reach is the spec's decision D7): the cell the port's write names takes the value presented unless
the store is discarded, and every other cell reads as before; OUT, which stores nothing, leaves every cell. -/
def Obligations.InstructionMemoryFrame : Prop :=
  ∀ (i : Instr) (s t : State), Memory.wf s.cfg s.mem = true → exec i s = .next t →
    ∀ x : Nat, t.cell x =
      match storeTarget i with
      | none => s.cell x
      | some b => if x = b ∧ ¬ (s.cfg.writeProtect = true ∧ s.cfg.tableBase ≤ b) then storeValue i s else s.cell x

/-- R85: when the branch is not taken, and at the end of every OUT, IN and IRQ form, `pc` is the old `pc` plus 3 with
no wrap-around; it lies in [3, 2^24], and the values 2^24 − 2, 2^24 − 1 and 2^24 fault in the next cycle. Two clauses are the
spec's decisions: not taken is read from the computed result, D8 (entry 12), and that fault leaves `pc` alone, D22
(entry 25). -/
def Obligations.SequencerAddsThreeWithoutWrap : Prop :=
  ∀ (s : State) (i : Instr), performs s i →
    (∀ a b c, i = .subleq a b c → 0 < subWrapped (s.cell b) (s.cell a)) →
    ∃ t, step s = .next t ∧ t.pc = s.pc + 3 ∧ 3 ≤ t.pc ∧ t.pc ≤ 2 ^ 24 ∧ t.run = .running ∧
      (2 ^ 24 - 3 < t.pc → nextTurn t = .engine →
        ∃ u, step t = .next u ∧ u.run = .faulted ∧ u.pc = t.pc)

/-- A store into the instruction's own triple leaves the current cycle's operands as fetched: a taken branch goes to
the `c` fetched, and the cell holds the result afterwards unless it is write-protected (R86, R145). Two clauses are
the spec's decisions: the branch tests the computed result of a discarded store, D8 (entry 12), and `pc` stays on halt,
D22 (entry 25). -/
def Obligations.StoreIntoOwnTripleActsOnNextFetch : Prop :=
  ∀ (s : State) (a b : Nat) (c : Int), performs s (.subleq a b c) → Memory.wf s.cfg s.mem = true →
    ((b : Int) = s.pc ∨ (b : Int) = s.pc + 1 ∨ (b : Int) = s.pc + 2) →
    ∃ t, step s = .next t ∧
      t.cell b = (if s.cfg.writeProtect = true ∧ s.cfg.tableBase ≤ b then s.cell b
        else subWrapped (s.cell b) (s.cell a)) ∧
      (subWrapped (s.cell b) (s.cell a) ≤ 0 → c ≠ 0xFFFFFF → t.pc = s.cell (s.pc.toNat + 2) ∧ t.run = .running) ∧
      (subWrapped (s.cell b) (s.cell a) ≤ 0 → c = 0xFFFFFF → t.pc = s.pc ∧ t.run = .halted)

/-- `a = b` (R87, R59): the cell becomes 0 unless write-protected and the branch is always taken; with the halt
sentinel the machine halts in place. Two clauses are the spec's decisions: the branch is taken under a discarded store
too, D8 (entry 12), and `pc` stays on halt, D22 (entry 25). -/
def Obligations.SelfSubtractionClearsAndBranches : Prop :=
  ∀ (s : State) (a : Nat) (c : Int), (Instr.subleq a a c).wellFormed = true → Memory.wf s.cfg s.mem = true →
    ∃ t, exec (.subleq a a c) s = .next t ∧
      t.cell a = (if s.cfg.writeProtect = true ∧ s.cfg.tableBase ≤ a then s.cell a else 0) ∧
      t.pc = (if c = 0xFFFFFF then s.pc else c) ∧ (c = 0xFFFFFF → t.run = .halted)

/-! ## The cycle -/

/-- A step of a running machine whose turn is the engine's runs the decoded instruction: when `term` is 0, the triple
lies in memory and its cells decode to `i`, the step is `exec i` at that state with the turn taken off the schedule
(R65, R68, R72). -/
def Obligations.StepRunsDecodedInstruction : Prop :=
  ∀ (s : State) (i : Instr), engineNext s → s.term = false → 0 ≤ s.pc → s.pc ≤ 2 ^ 24 - 3 →
    decode ⟨s.cell s.pc.toNat, s.cell (s.pc.toNat + 1), s.cell (s.pc.toNat + 2)⟩ = .ok i →
    step s = exec i { s with turns := s.turns.rest }

/-- When `term` is 1 the next cycle ends the run as TERMINATED and does nothing else, whatever the `pc` (R66, R119;
the place of the check is the spec's decision D12). -/
def Obligations.TerminateCheckedFirst : Prop :=
  ∀ s : State, engineNext s → s.term = true →
    step s = .next { s with run := .terminated, turns := s.turns.rest } ∧ cycleAccesses s = []

/-- R68: with `pc` at 2^24 − 2 or 2^24 − 1 the cycle raises FETCH_RANGE and reads nothing; a cycle gets past the fetch
exactly when 0 ≤ `pc` ≤ 2^24 − 3, and then it has read the three cells from `pc` on. -/
def Obligations.FetchRangeFault : Prop :=
  ∀ s : State, engineNext s → s.term = false →
    (s.pc = 2 ^ 24 - 2 ∨ s.pc = 2 ^ 24 - 1 →
      step s = .next { s with run := .faulted, cause := .fetchRange, turns := s.turns.rest } ∧ cycleAccesses s = []) ∧
    (0 ≤ s.pc ∧ s.pc ≤ 2 ^ 24 - 3 ↔ cycleAccesses s ≠ []) ∧
    (0 ≤ s.pc → s.pc ≤ 2 ^ 24 - 3 →
      (cycleAccesses s).take 3 = [.read s.pc.toNat, .read (s.pc.toNat + 1), .read (s.pc.toNat + 2)])

/-- The order of the checks in a cycle that does not terminate, with the cause each records (R120, R67 to R71; the order
inside step 3 is the spec's decision D26, the lower bound of `pc` D11, the codes D15). -/
def Obligations.FaultPriorityOrder : Prop :=
  ∀ s : State, engineNext s → s.term = false →
    let faultsWith (cause : Cause) : Prop :=
      step s = .next { s with run := .faulted, cause := cause, turns := s.turns.rest }
    let a := s.cell s.pc.toNat
    let b := s.cell (s.pc.toNat + 1)
    (s.pc < 0 ∨ 2 ^ 24 ≤ s.pc → faultsWith .pcRange) ∧
    (s.pc = 2 ^ 24 - 2 ∨ s.pc = 2 ^ 24 - 1 → faultsWith .fetchRange) ∧
    (0 ≤ s.pc → s.pc ≤ 2 ^ 24 - 3 →
      (2 ^ 24 ≤ a → faultsWith .aHigh) ∧
      (a < 2 ^ 24 → 2 ^ 24 ≤ b → faultsWith .bHigh) ∧
      (a < 0 → b < 2 ^ 24 → s.cfg.negOperandFault = true → faultsWith .aNeg) ∧
      (0 ≤ a → a < 2 ^ 24 → b < 0 → s.cfg.negOperandFault = true → faultsWith .bNeg))

/-- Without `NEG_OPERAND_FAULT` a cycle with a negative operand, and neither operand too high, is refused: the spec gives
it no meaning (R71, U1; the spec's decision D28). -/
def Obligations.NegativeOperandRefusedInAlternate : Prop :=
  ∀ s : State, engineNext s → s.term = false → 0 ≤ s.pc → s.pc ≤ 2 ^ 24 - 3 → s.cfg.negOperandFault = false →
    (s.cell s.pc.toNat < 0 → s.cell (s.pc.toNat + 1) < 2 ^ 24 → step s = .refused .negativeA) ∧
    (0 ≤ s.cell s.pc.toNat → s.cell s.pc.toNat < 2 ^ 24 → s.cell (s.pc.toNat + 1) < 0 →
      step s = .refused .negativeB)

/-- Faults are precise: a step that ends FAULTED changes `run`, `cause` and the schedule and nothing else, and records a
cause (R73, R115, R121). -/
def Obligations.FaultsArePrecise : Prop :=
  ∀ s t : State, step s = .next t → t.run = .faulted →
    t = { s with run := .faulted, cause := t.cause, turns := s.turns.rest } ∧ t.cause ≠ .none

/-- An engine cycle that gives a next state ends in one of the five ways of R65, told apart by `run` and, for the last
two, by whether the branch was taken; `pc` is written only by the last two (R11). The spec's decisions it rests on: the
place of the terminate check and its state D12, the test of the computed result D8, the `pc` kept in terminal states
D22. -/
def Obligations.CycleEndsInOneOfFiveWays : Prop :=
  ∀ s t : State, engineNext s → step s = .next t →
    (t.run = .terminated ∧ t.pc = s.pc ∧ s.term = true) ∨
    (t.run = .faulted ∧ t.pc = s.pc ∧ t.cause ≠ .none ∧ s.term = false) ∨
    (t.run = .halted ∧ t.pc = s.pc ∧ ∃ a b, performs s (.subleq a b 0xFFFFFF) ∧
      subWrapped (s.cell b) (s.cell a) ≤ 0) ∨
    (t.run = .running ∧ t.pc = s.pc + 3 ∧ ∃ i, performs s i ∧
      ∀ a b c, i = .subleq a b c → 0 < subWrapped (s.cell b) (s.cell a)) ∨
    (t.run = .running ∧ ∃ a b c, performs s (.subleq a b c) ∧ c ≠ 0xFFFFFF ∧
      subWrapped (s.cell b) (s.cell a) ≤ 0 ∧ t.pc = c)

/-- The engine is never stuck: a running machine has a next state, unless its cycle is refused under R71, which takes
`NEG_OPERAND_FAULT` false and a negative operand (R75). -/
def Obligations.RunningMachineIsNeverStuck : Prop :=
  ∀ s : State, s.run = .running →
    (∃ t, step s = .next t) ∨
      (s.cfg.negOperandFault = false ∧ (∃ r, step s = .refused r) ∧
        (s.cell s.pc.toNat < 0 ∨ s.cell (s.pc.toNat + 1) < 0))

/-- A step stops exactly when the run is over (R74 and the spec's decision D23; that such a step answers a fault is the
model's form of it, entry 8). -/
def Obligations.StepStopsExactlyWhenRunIsOver : Prop :=
  ∀ s : State, (∃ f, step s = .fault f) ↔ s.run ≠ .running

/-- No cell outside [0, 2^24) is read or written (R33): every access of every cycle lies inside; a `pc` whose triple
reaches 2^24 is a fault before any access, an `a` or `b` of 2^24 or more a fault after the fetch alone; a cycle that
performs an instruction has its triple inside, and its accesses are the fetch and that form's; whatever `c` holds, the
instruction is performed. That these checks come after the terminate check is the spec's decision D12 (entry 13), the
list of accesses its D25 (entry 20). -/
def Obligations.CycleAccessesStayInsideMemory : Prop :=
  (∀ (s : State) (x : Nat),
    (Access.read x ∈ cycleAccesses s ∨ ∃ v, Access.write x v ∈ cycleAccesses s) → x < 2 ^ 24) ∧
  (∀ s : State, engineNext s → s.term = false → 2 ^ 24 ≤ s.pc ∨ 2 ^ 24 ≤ s.pc + 1 ∨ 2 ^ 24 ≤ s.pc + 2 →
    ∃ t, step s = .next t ∧ t.run = .faulted ∧ cycleAccesses s = []) ∧
  (∀ s : State, engineNext s → s.term = false → 0 ≤ s.pc → s.pc ≤ 2 ^ 24 - 3 →
    let fetched : List Access := [.read s.pc.toNat, .read (s.pc.toNat + 1), .read (s.pc.toNat + 2)]
    let a := s.cell s.pc.toNat
    let b := s.cell (s.pc.toNat + 1)
    (2 ^ 24 ≤ a ∨ 2 ^ 24 ≤ b → ∃ t, step s = .next t ∧ t.run = .faulted ∧ cycleAccesses s = fetched) ∧
    (0 ≤ a → a < 2 ^ 24 → 0 ≤ b → b < 2 ^ 24 → ∃ i, performs s i)) ∧
  (∀ (s : State) (i : Instr), performs s i →
    0 ≤ s.pc ∧ s.pc + 2 < 2 ^ 24 ∧
      cycleAccesses s =
        [.read s.pc.toNat, .read (s.pc.toNat + 1), .read (s.pc.toNat + 2)] ++ formAccesses i s)

/-- The engine's result depends on memory only through the cells its port reads (R38, R39, R76): with any other memory
that agrees on those, the cycle does the same to every register, the cell its port writes takes the same value, and
every cell it does not write keeps its own. That the store of IN and IRQ too is discarded at a protected cell is the
spec's decision D7 (entry 12). -/
def Obligations.CycleDependsOnlyOnCellsRead : Prop :=
  ∀ (s t : State) (m : Memory), Memory.wf s.cfg s.mem = true → Memory.wf s.cfg m = true →
    engineCycle s = .next t →
    (∀ x : Nat, Access.read x ∈ cycleAccesses s → Memory.read s.cfg m x = s.cell x) →
    ∃ m' : Memory, engineCycle { s with mem := m } = .next { t with mem := m' } ∧
      (∀ (x : Nat) (v : Int), Access.write x v ∈ cycleAccesses s →
        ¬ (s.cfg.writeProtect = true ∧ s.cfg.tableBase ≤ x) →
        t.cell x = v ∧ Memory.read s.cfg m' x = v) ∧
      (∀ x : Nat, (∀ v, Access.write x v ∉ cycleAccesses s) ∨
        (s.cfg.writeProtect = true ∧ s.cfg.tableBase ≤ x) →
        t.cell x = s.cell x ∧ Memory.read s.cfg m' x = Memory.read s.cfg m x)

/-- The engine reads neither `cnt` nor `out` (R76, R18): with any other values of them the cycle does the same, and emits
the same bytes. -/
def Obligations.CycleIgnoresCounterAndOutput : Prop :=
  ∀ (s t : State) (n : Nat) (o : List Byte), engineCycle s = .next t →
    ∃ more : List Byte, t.out = s.out ++ more ∧
      engineCycle { s with cnt := n, out := o } = .next { t with cnt := n, out := o ++ more }

/-! ## Whole-machine rules -/

/-- Every step from a legal state leads to a legal state: the parameters keep R3, memory its canonical form and its cells
their width (R12), `pc` its range (R11, R85), the cursors and the buffer theirs (R19), `cnt` its bound and its tie to
`term` (R18, R104, R106), `cause` its tie to `run` (R15); and a machine with `term` set ends only TERMINATED (the spec's
decision D12). -/
def Obligations.StepKeepsLegalStates : Prop :=
  ∀ s t : State, s.Inv → step s = .next t → t.Inv

/-- Under write protection no step of either agent changes a cell at or above `TABLE_BASE` (R149; R35, whose reach over
the IN and IRQ stores is the spec's decision D7). -/
def Obligations.ProtectedCellsNeverChange : Prop :=
  ∀ (s t : State) (x : Nat), s.cfg.writeProtect = true → s.cfg.tableBase ≤ x → step s = .next t →
    t.cell x = s.cell x

/-- A step changes a cell only to a value in [−2^23, 2^24 − 1] (R13). -/
def Obligations.WrittenCellsStayInRange : Prop :=
  ∀ (s t : State) (x : Nat), s.Inv → step s = .next t → t.cell x ≠ s.cell x →
    -(2 ^ 23) ≤ t.cell x ∧ t.cell x ≤ 2 ^ 24 - 1

/-- No step makes a sentinel: a cell holds 0xFFFFFE after a step only if it did before, and 0xFFFFFF only if it did
before or an IN on an empty buffer stored it there (R88, R143). -/
def Obligations.SentinelsCannotBeComputed : Prop :=
  ∀ (s t : State) (x : Nat), s.Inv → step s = .next t →
    (t.cell x = 0xFFFFFE → s.cell x = 0xFFFFFE) ∧
    (t.cell x = 0xFFFFFF → s.cell x = 0xFFFFFF ∨
      ∃ c, performs s (.inp x c) ∧ s.head = s.tail)

/-- The output only grows, by one byte in an OUT cycle and by none in any other step (R20); the byte is the low 8 bits of
the cell, the spec's decision D9. -/
def Obligations.OutputGrowsOnlyByOut : Prop :=
  ∀ s t : State, step s = .next t →
    (t.out = s.out ∧ ∀ a c, ¬ performs s (.out a c)) ∨
    ∃ a c, performs s (.out a c) ∧ ∃ byte : Byte, (byte.toNat : Int) = s.cell a % 256 ∧ t.out = s.out ++ [byte]

/-- Halt is reached only by a SUBLEQ whose branch is taken to the sentinel (R84); that the branch tests the computed
result, where the store is discarded too, is the spec's decision D8 (entry 12). -/
def Obligations.HaltOnlyByTakenSubleq : Prop :=
  ∀ s t : State, step s = .next t → t.run = .halted →
    ∃ a b, performs s (.subleq a b 0xFFFFFF) ∧ subWrapped (s.cell b) (s.cell a) ≤ 0

/-- The address decoder's classes decide the outcome (R32 to R35): a triple decodes exactly when both operands are RO or
RW; a store to an RO address under write protection changes nothing (reach over every store: the spec's decision D7); one
to an RW address is read back. -/
def Obligations.AddressClassesDecideOutcome : Prop :=
  (∀ (cfg : Config) (t : Triple),
    ((∃ i, decode t = .ok i) ↔
      (classify cfg t.a = .ro ∨ classify cfg t.a = .rw) ∧ (classify cfg t.b = .ro ∨ classify cfg t.b = .rw))) ∧
  (∀ (s : State) (n : Nat) (v : Int), classify s.cfg n = .ro → s.cfg.writeProtect = true → storeCell n v s = s) ∧
  (∀ (s : State) (n : Nat) (v : Int), Memory.wf s.cfg s.mem = true →
    classify s.cfg n = .rw ∨ (classify s.cfg n = .ro ∧ s.cfg.writeProtect = false) → (storeCell n v s).cell n = v)

/-- Memory's form is canonical: two memories in that form that read alike at every address are the same data. -/
def Obligations.CanonicalMemoriesThatReadAlikeAreEqual : Prop :=
  ∀ (cfg : Config) (m m' : Memory), Memory.wf cfg m = true → Memory.wf cfg m' = true →
    (∀ x : Nat, Memory.read cfg m x = Memory.read cfg m' x) → m = m'

/-! ## The two agents -/

/-- Every interleaving of cycles and pushes, with every sequence of bytes, is a run (R5, whose atomic steps are the spec's
decision D13, entry 14): whatever the moves and the state, some schedule makes the machine take exactly these moves, in
order, each whole, for as long as the run lasts. What follows a schedule's list is free (entry 7),
but for the engine's turns, which never cease (R155, entry 27). -/
def Obligations.EveryInterleavingIsARun : Prop :=
  ∀ (moves : List Turn) (s : State), ∃ turns : Schedule,
    ∀ (n : Nat) (h : n < moves.length) (t : State),
      runFor n { s with turns := turns } = .next t → t.run = .running →
      step t = match moves[n] with
        | .engine => engineCycle { t with turns := t.turns.rest }
        | .capture byte => .next (push byte { t with turns := t.turns.rest })

/-- While `run` is RUNNING the engine eventually takes its next step (R155), and CAPTURE never blocks it (R4): every
schedule gives the engine some coming turn, after any number of pushes, and a running machine comes to an engine cycle no
later than that turn, with memory, `pc`, `run`, `cause` and the output as they were. How the free input holds this is
entry 27. -/
def Obligations.EngineReachesItsNextTurn : Prop :=
  (∀ turns : Schedule, ∃ k : Nat, (upcoming (k + 1) turns)[k]? = some .engine) ∧
  (∀ (s : State) (k : Nat), s.run = .running → (upcoming (k + 1) s.turns)[k]? = some .engine →
    ∃ n t, n ≤ k ∧ runFor n s = .next t ∧ engineNext t ∧
      t.mem = s.mem ∧ t.pc = s.pc ∧ t.run = s.run ∧ t.cause = s.cause ∧ t.out = s.out)

/-! ## Keystroke capture -/

/-- `push(byte)`, whole (R101, R102): nothing when `term` is set, the interrupt byte below and past the threshold, and any
other byte; and it is one atomic step of the machine, which is the spec's decision D13 (entry 14). The byte 4 falls under
the clause of every other byte by the spec's decision D18 (entry 15). -/
def Obligations.PushFollowsItsPseudocode : Prop :=
  ∀ (byte : Byte) (s : State),
    (s.term = true → push byte s = s) ∧
    (s.term = false → byte = 3 → s.cfg.intThreshold < s.cnt + 1 →
      push byte s = { s with irq := true, head := 0, tail := 0, cnt := s.cnt + 1, term := true }) ∧
    (s.term = false → byte = 3 → s.cnt + 1 ≤ s.cfg.intThreshold →
      push byte s = { s with
        irq := true, buf := s.buf.set 0 3, head := 1 % s.cfg.kbufCap, tail := 0, cnt := s.cnt + 1 }) ∧
    (s.term = false → byte ≠ 3 →
      push byte s = { s with
        cnt := 0, buf := s.buf.set s.head byte, head := (s.head + 1) % s.cfg.kbufCap }) ∧
    (s.run = .running → nextTurn s = .capture byte → step s = .next (push byte { s with turns := s.turns.rest }))

/-- Once `term` is set, `push` changes nothing, whatever the byte, the interrupt byte included (R102). -/
def Obligations.PushDiscardedWhenTerminating : Prop :=
  ∀ (byte : Byte) (s : State), s.term = true → push byte s = s

/-- `pop()` (R107): EMPTY and no change when the cursors are equal; else the byte at `tail`, and `tail` moves on. It is
called by IN, once, and by no other form. -/
def Obligations.PopReturnsByteAtTail : Prop :=
  ∀ s : State,
    (s.head = s.tail → pop s = (none, s)) ∧
    (s.head ≠ s.tail → ∀ byte : Byte, s.buf[s.tail]? = some byte →
      pop s = (some byte, { s with tail := (s.tail + 1) % s.cfg.kbufCap })) ∧
    (∀ (i : Instr) (t : State), exec i s = .next t → t.tail = if i.form = .inp then (pop s).2.tail else s.tail)

/-- A CAPTURE step of a running machine is one `push` and touches neither memory, `pc`, `run`, `cause`, `out` nor the
parameters (R100, R41). -/
def Obligations.CaptureStepLeavesEngineState : Prop :=
  ∀ (s : State) (byte : Byte), s.run = .running → nextTurn s = .capture byte →
    ∃ t, step s = .next t ∧ t = push byte { s with turns := s.turns.rest } ∧ t.cfg = s.cfg ∧ t.mem = s.mem ∧
      t.pc = s.pc ∧ t.run = s.run ∧ t.cause = s.cause ∧ t.out = s.out ∧ t.turns = s.turns.rest

/-- An engine cycle never sets `irq` and writes neither `cnt`, `term`, `buf` nor `head` (R111, R16 to R19). -/
def Obligations.EngineLeavesCaptureState : Prop :=
  ∀ s t : State, engineNext s → step s = .next t →
    t.cnt = s.cnt ∧ t.term = s.term ∧ t.buf = s.buf ∧ t.head = s.head ∧ (t.irq = true → s.irq = true)

/-- The terminate flag is never cleared by a step (R17). -/
def Obligations.TerminateIsNeverCleared : Prop :=
  ∀ s t : State, step s = .next t → s.term = true → t.term = true

/-- FIFO order (R108): under any interleaving of pushes of ordinary bytes and pops that never finds more than
`KBUF_CAP` − 1 bytes unread, the ring buffer answers as a plain first-in first-out queue started with its visible
content does. -/
def Obligations.RingBufferIsFifo : Prop :=
  ∀ (ops : List QueueOp) (s : State) (r : List (Option Byte) × List Byte), s.Inv → s.term = false →
    ops.all QueueOp.ordinary = true →
    runFifo (s.cfg.kbufCap - 1) ops (visible s) = some r →
    (runQueue ops s).1 = r.1 ∧ visible (runQueue ops s).2 = r.2

/-- Overflow (R109): after `k` pushes of ordinary bytes and no pop, from an empty buffer, exactly the last
`k mod KBUF_CAP` bytes are visible, in order. -/
def Obligations.OverflowKeepsLastModuloCapacity : Prop :=
  ∀ (bytes : List Byte) (s : State), s.Inv → s.term = false → s.head = s.tail → (∀ b ∈ bytes, b ≠ 3) →
    visible (pushAll bytes s) = bytes.drop (bytes.length - bytes.length % s.cfg.kbufCap) ∧
      occupancy (pushAll bytes s) = bytes.length % s.cfg.kbufCap

/-- An interrupt byte discards pending input (R110, R103, R106): afterwards the buffer holds just the 3, or nothing when
the push terminates. -/
def Obligations.InterruptDiscardsPendingInput : Prop :=
  ∀ s : State, s.Inv → s.term = false →
    (push 3 s).irq = true ∧
    (s.cnt < s.cfg.intThreshold → visible (push 3 s) = [3] ∧ (push 3 s).term = false) ∧
    (s.cfg.intThreshold ≤ s.cnt → visible (push 3 s) = [] ∧ (push 3 s).term = true)

/-- The interrupt flag is consumed once (R146): after an interrupt byte, an IN leaves the flag 0 for the next IRQ and
leaves the byte 3 as its only trace; an IRQ that comes first reports 1 and leaves 0. The flag is consumed just as well
where the store is discarded, and the protected cell reads as before; that the discard covers the IN and IRQ stores is
the spec's decision D7 (entry 12). -/
def Obligations.InterruptFlagConsumedOnce : Prop :=
  ∀ (s : State) (b b' : Nat) (c c' : Int), s.Inv → s.cnt < s.cfg.intThreshold →
    (Instr.inp b c).wellFormed = true → (Instr.irq b' c').wellFormed = true →
    let discarded (x : Nat) : Prop := s.cfg.writeProtect = true ∧ s.cfg.tableBase ≤ x
    (∃ t u, exec (.inp b c) (push 3 s) = .next t ∧ t.irq = false ∧
      (¬ discarded b → t.cell b = 3) ∧ (discarded b → t.cell b = s.cell b) ∧
      exec (.irq b' c') t = .next u ∧ u.irq = false ∧
      (¬ discarded b' → u.cell b' = 0) ∧ (discarded b' → u.cell b' = s.cell b')) ∧
    (∃ t, exec (.irq b' c') (push 3 s) = .next t ∧ t.irq = false ∧
      (¬ discarded b' → t.cell b' = 1) ∧ (discarded b' → t.cell b' = s.cell b'))

/-- More than `INT_THRESHOLD` interrupt bytes in a row end the run at the next cycle, whatever the program does and however
many cycles, IN cycles among them, fall between the bytes (R148, R104): after any run that delivers that many and
no other byte, `term` is set, and the next engine cycle of a machine still running ends TERMINATED. R148 says that the
run ends; the state TERMINATED and its check at the start of the cycle are the spec's decision D12 (entry 13). -/
def Obligations.ConsecutiveInterruptsTerminate : Prop :=
  ∀ (n : Nat) (s t : State), runFor n s = .next t → onlyInterruptsIn n s = true →
    s.cfg.intThreshold < interruptsIn n s →
    t.term = true ∧ (engineNext t → ∃ u, step t = .next u ∧ u.run = .terminated)

/-- The contents of slots outside `tail .. head`, in particular those at reset (entry 6), cannot be observed (R19, U2):
two legal states that differ only there take their next step alike, show the host the same, and still differ only
there. -/
def Obligations.HiddenSlotsCannotBeObserved : Prop :=
  ∀ s t s' : State, s.Inv → t.Inv → sameButHiddenSlots s t → step s = .next s' →
    ∃ t', step t = .next t' ∧ sameButHiddenSlots s' t' ∧ hostView s' = hostView t'
end

