-- ==== Sys2Proof/Laws/State.lean ====
section
/-! SUPPORT. The fields of every update of State: one lemma per field per operation, true by rfl, and the fields of
the state at release of reset. -/

namespace Sys2Proof.Machine

/-- The size of memory as an integer, for omega. -/
theorem memSize_cast : ((memSize : Nat) : Int) = 16777216 := rfl

/-- The sentinels as integers, for omega. -/
theorem sentIO_cast : ((sentIO : Nat) : Int) = 16777215 := rfl
theorem sentIRQ_cast : ((sentIRQ : Nat) : Int) = 16777214 := rfl

variable (s : State)

@[simp] theorem advance_cfg : (advance s).cfg = s.cfg := rfl
@[simp] theorem advance_mem : (advance s).mem = s.mem := rfl
@[simp] theorem advance_pc : (advance s).pc = s.pc + 3 := rfl
@[simp] theorem advance_run : (advance s).run = s.run := rfl
@[simp] theorem advance_cause : (advance s).cause = s.cause := rfl
@[simp] theorem advance_irq : (advance s).irq = s.irq := rfl
@[simp] theorem advance_term : (advance s).term = s.term := rfl
@[simp] theorem advance_cnt : (advance s).cnt = s.cnt := rfl
@[simp] theorem advance_buf : (advance s).buf = s.buf := rfl
@[simp] theorem advance_head : (advance s).head = s.head := rfl
@[simp] theorem advance_tail : (advance s).tail = s.tail := rfl
@[simp] theorem advance_out : (advance s).out = s.out := rfl
@[simp] theorem advance_turns : (advance s).turns = s.turns := rfl
@[simp] theorem advance_cell (x : Nat) : (advance s).cell x = s.cell x := rfl

@[simp] theorem jump_cfg (c : Int) : (jump c s).cfg = s.cfg := rfl
@[simp] theorem jump_mem (c : Int) : (jump c s).mem = s.mem := rfl
@[simp] theorem jump_pc (c : Int) : (jump c s).pc = c := rfl
@[simp] theorem jump_run (c : Int) : (jump c s).run = s.run := rfl
@[simp] theorem jump_cause (c : Int) : (jump c s).cause = s.cause := rfl
@[simp] theorem jump_irq (c : Int) : (jump c s).irq = s.irq := rfl
@[simp] theorem jump_term (c : Int) : (jump c s).term = s.term := rfl
@[simp] theorem jump_cnt (c : Int) : (jump c s).cnt = s.cnt := rfl
@[simp] theorem jump_buf (c : Int) : (jump c s).buf = s.buf := rfl
@[simp] theorem jump_head (c : Int) : (jump c s).head = s.head := rfl
@[simp] theorem jump_tail (c : Int) : (jump c s).tail = s.tail := rfl
@[simp] theorem jump_out (c : Int) : (jump c s).out = s.out := rfl
@[simp] theorem jump_turns (c : Int) : (jump c s).turns = s.turns := rfl
@[simp] theorem jump_cell (c : Int) (x : Nat) : (jump c s).cell x = s.cell x := rfl

@[simp] theorem halt_cfg : (halt s).cfg = s.cfg := rfl
@[simp] theorem halt_mem : (halt s).mem = s.mem := rfl
@[simp] theorem halt_pc : (halt s).pc = s.pc := rfl
@[simp] theorem halt_run : (halt s).run = .halted := rfl
@[simp] theorem halt_cause : (halt s).cause = s.cause := rfl
@[simp] theorem halt_irq : (halt s).irq = s.irq := rfl
@[simp] theorem halt_term : (halt s).term = s.term := rfl
@[simp] theorem halt_cnt : (halt s).cnt = s.cnt := rfl
@[simp] theorem halt_buf : (halt s).buf = s.buf := rfl
@[simp] theorem halt_head : (halt s).head = s.head := rfl
@[simp] theorem halt_tail : (halt s).tail = s.tail := rfl
@[simp] theorem halt_out : (halt s).out = s.out := rfl
@[simp] theorem halt_turns : (halt s).turns = s.turns := rfl
@[simp] theorem halt_cell (x : Nat) : (halt s).cell x = s.cell x := rfl

@[simp] theorem emit_cfg (byte : Byte) : (emit byte s).cfg = s.cfg := rfl
@[simp] theorem emit_mem (byte : Byte) : (emit byte s).mem = s.mem := rfl
@[simp] theorem emit_pc (byte : Byte) : (emit byte s).pc = s.pc := rfl
@[simp] theorem emit_run (byte : Byte) : (emit byte s).run = s.run := rfl
@[simp] theorem emit_cause (byte : Byte) : (emit byte s).cause = s.cause := rfl
@[simp] theorem emit_irq (byte : Byte) : (emit byte s).irq = s.irq := rfl
@[simp] theorem emit_term (byte : Byte) : (emit byte s).term = s.term := rfl
@[simp] theorem emit_cnt (byte : Byte) : (emit byte s).cnt = s.cnt := rfl
@[simp] theorem emit_buf (byte : Byte) : (emit byte s).buf = s.buf := rfl
@[simp] theorem emit_head (byte : Byte) : (emit byte s).head = s.head := rfl
@[simp] theorem emit_tail (byte : Byte) : (emit byte s).tail = s.tail := rfl
@[simp] theorem emit_out (byte : Byte) : (emit byte s).out = s.out ++ [byte] := rfl
@[simp] theorem emit_turns (byte : Byte) : (emit byte s).turns = s.turns := rfl
@[simp] theorem emit_cell (byte : Byte) (x : Nat) : (emit byte s).cell x = s.cell x := rfl

@[simp] theorem clearIrq_cfg : (clearIrq s).cfg = s.cfg := rfl
@[simp] theorem clearIrq_mem : (clearIrq s).mem = s.mem := rfl
@[simp] theorem clearIrq_pc : (clearIrq s).pc = s.pc := rfl
@[simp] theorem clearIrq_run : (clearIrq s).run = s.run := rfl
@[simp] theorem clearIrq_cause : (clearIrq s).cause = s.cause := rfl
@[simp] theorem clearIrq_irq : (clearIrq s).irq = false := rfl
@[simp] theorem clearIrq_term : (clearIrq s).term = s.term := rfl
@[simp] theorem clearIrq_cnt : (clearIrq s).cnt = s.cnt := rfl
@[simp] theorem clearIrq_buf : (clearIrq s).buf = s.buf := rfl
@[simp] theorem clearIrq_head : (clearIrq s).head = s.head := rfl
@[simp] theorem clearIrq_tail : (clearIrq s).tail = s.tail := rfl
@[simp] theorem clearIrq_out : (clearIrq s).out = s.out := rfl
@[simp] theorem clearIrq_turns : (clearIrq s).turns = s.turns := rfl
@[simp] theorem clearIrq_cell (x : Nat) : (clearIrq s).cell x = s.cell x := rfl

@[simp] theorem raiseFault_cfg (cause : Cause) : (raiseFault cause s).cfg = s.cfg := rfl
@[simp] theorem raiseFault_mem (cause : Cause) : (raiseFault cause s).mem = s.mem := rfl
@[simp] theorem raiseFault_pc (cause : Cause) : (raiseFault cause s).pc = s.pc := rfl
@[simp] theorem raiseFault_run (cause : Cause) : (raiseFault cause s).run = .faulted := rfl
@[simp] theorem raiseFault_cause (cause : Cause) : (raiseFault cause s).cause = cause := rfl
@[simp] theorem raiseFault_irq (cause : Cause) : (raiseFault cause s).irq = s.irq := rfl
@[simp] theorem raiseFault_term (cause : Cause) : (raiseFault cause s).term = s.term := rfl
@[simp] theorem raiseFault_cnt (cause : Cause) : (raiseFault cause s).cnt = s.cnt := rfl
@[simp] theorem raiseFault_buf (cause : Cause) : (raiseFault cause s).buf = s.buf := rfl
@[simp] theorem raiseFault_head (cause : Cause) : (raiseFault cause s).head = s.head := rfl
@[simp] theorem raiseFault_tail (cause : Cause) : (raiseFault cause s).tail = s.tail := rfl
@[simp] theorem raiseFault_out (cause : Cause) : (raiseFault cause s).out = s.out := rfl
@[simp] theorem raiseFault_turns (cause : Cause) : (raiseFault cause s).turns = s.turns := rfl
@[simp] theorem raiseFault_cell (cause : Cause) (x : Nat) : (raiseFault cause s).cell x = s.cell x := rfl

@[simp] theorem terminate_cfg : (terminate s).cfg = s.cfg := rfl
@[simp] theorem terminate_mem : (terminate s).mem = s.mem := rfl
@[simp] theorem terminate_pc : (terminate s).pc = s.pc := rfl
@[simp] theorem terminate_run : (terminate s).run = .terminated := rfl
@[simp] theorem terminate_cause : (terminate s).cause = s.cause := rfl
@[simp] theorem terminate_irq : (terminate s).irq = s.irq := rfl
@[simp] theorem terminate_term : (terminate s).term = s.term := rfl
@[simp] theorem terminate_cnt : (terminate s).cnt = s.cnt := rfl
@[simp] theorem terminate_buf : (terminate s).buf = s.buf := rfl
@[simp] theorem terminate_head : (terminate s).head = s.head := rfl
@[simp] theorem terminate_tail : (terminate s).tail = s.tail := rfl
@[simp] theorem terminate_out : (terminate s).out = s.out := rfl
@[simp] theorem terminate_turns : (terminate s).turns = s.turns := rfl
@[simp] theorem terminate_cell (x : Nat) : (terminate s).cell x = s.cell x := rfl

@[simp] theorem dropTurn_cfg : (dropTurn s).cfg = s.cfg := rfl
@[simp] theorem dropTurn_mem : (dropTurn s).mem = s.mem := rfl
@[simp] theorem dropTurn_pc : (dropTurn s).pc = s.pc := rfl
@[simp] theorem dropTurn_run : (dropTurn s).run = s.run := rfl
@[simp] theorem dropTurn_cause : (dropTurn s).cause = s.cause := rfl
@[simp] theorem dropTurn_irq : (dropTurn s).irq = s.irq := rfl
@[simp] theorem dropTurn_term : (dropTurn s).term = s.term := rfl
@[simp] theorem dropTurn_cnt : (dropTurn s).cnt = s.cnt := rfl
@[simp] theorem dropTurn_buf : (dropTurn s).buf = s.buf := rfl
@[simp] theorem dropTurn_head : (dropTurn s).head = s.head := rfl
@[simp] theorem dropTurn_tail : (dropTurn s).tail = s.tail := rfl
@[simp] theorem dropTurn_out : (dropTurn s).out = s.out := rfl
@[simp] theorem dropTurn_turns : (dropTurn s).turns = s.turns.rest := rfl
@[simp] theorem dropTurn_cell (x : Nat) : (dropTurn s).cell x = s.cell x := rfl

@[simp] theorem atRelease_cfg (cfg : Config) (mem : Memory) : (State.atRelease cfg mem).cfg = cfg := rfl
@[simp] theorem atRelease_mem (cfg : Config) (mem : Memory) : (State.atRelease cfg mem).mem = mem := rfl
@[simp] theorem atRelease_pc (cfg : Config) (mem : Memory) : (State.atRelease cfg mem).pc = 0 := rfl
@[simp] theorem atRelease_run (cfg : Config) (mem : Memory) : (State.atRelease cfg mem).run = .running := rfl
@[simp] theorem atRelease_cause (cfg : Config) (mem : Memory) : (State.atRelease cfg mem).cause = .none := rfl
@[simp] theorem atRelease_irq (cfg : Config) (mem : Memory) : (State.atRelease cfg mem).irq = false := rfl
@[simp] theorem atRelease_term (cfg : Config) (mem : Memory) : (State.atRelease cfg mem).term = false := rfl
@[simp] theorem atRelease_cnt (cfg : Config) (mem : Memory) : (State.atRelease cfg mem).cnt = 0 := rfl
@[simp] theorem atRelease_buf (cfg : Config) (mem : Memory) : (State.atRelease cfg mem).buf = List.replicate cfg.kbufCap 0 := rfl
@[simp] theorem atRelease_head (cfg : Config) (mem : Memory) : (State.atRelease cfg mem).head = 0 := rfl
@[simp] theorem atRelease_tail (cfg : Config) (mem : Memory) : (State.atRelease cfg mem).tail = 0 := rfl
@[simp] theorem atRelease_out (cfg : Config) (mem : Memory) : (State.atRelease cfg mem).out = [] := rfl
@[simp] theorem atRelease_turns (cfg : Config) (mem : Memory) : (State.atRelease cfg mem).turns = ⟨[], 0⟩ := rfl

/-! ## The schedule -/

variable (turns : Schedule) (turn : Turn) (rest : List Turn) (k n : Nat)

@[simp] theorem settle_listed : (Schedule.mk (turn :: rest) k).settle = ⟨turn :: rest, k⟩ := rfl
@[simp] theorem settle_free : (Schedule.mk [] k).settle = ⟨freeTurns k, k + 1⟩ := rfl
@[simp] theorem next_listed : (Schedule.mk (turn :: rest) k).next = turn := rfl
@[simp] theorem rest_listed : (Schedule.mk (turn :: rest) k).rest = ⟨rest, k⟩ := rfl

/-- Asking the outside world changes neither the coming turn nor what follows it. -/
@[simp] theorem next_settle : turns.settle.next = turns.next := by
  obtain ⟨_ | ⟨turn, rest⟩, k⟩ := turns
  · cases h : Config.freeInput k <;> simp [Schedule.next, freeTurns, h]
  · rfl
@[simp] theorem rest_settle : turns.settle.rest = turns.rest := by
  obtain ⟨_ | ⟨turn, rest⟩, k⟩ := turns
  · cases h : Config.freeInput k <;> simp [Schedule.rest, freeTurns, h]
  · rfl

@[simp] theorem upcoming_zero : upcoming 0 turns = [] := rfl
@[simp] theorem upcoming_succ : upcoming (n + 1) turns = turns.next :: upcoming n turns.rest := rfl

@[simp] theorem upcoming_length : (upcoming n turns).length = n := by
  induction n generalizing turns with
  | zero => rfl
  | succ n ih => simp [ih]

theorem upcoming_settle : upcoming n turns.settle = upcoming n turns := by cases n <;> simp

/-- The listed turns come first, in order (R5). -/
theorem upcoming_listed (moves : List Turn) : upcoming moves.length ⟨moves, k⟩ = moves := by
  induction moves with
  | nil => rfl
  | cons turn moves ih => exact congrArg (turn :: ·) ih

end Sys2Proof.Machine
end

