-- ==== Sys2Proof/Laws/Memory.lean ====
section
/-! SUPPORT. Memory: reading after writing, and every operation keeps the canonical form. -/

namespace Sys2Proof.Machine

variable {cfg : Config} {m : Memory} {lo addr x : Nat} {v : Int}

theorem wfFrom_cons {k : Nat} {w : Int} :
    Memory.wfFrom cfg lo ((k, w) :: m) = true ↔
      lo ≤ k ∧ k < memSize ∧ w ≠ unlistedCell cfg k ∧ Memory.wfFrom cfg (k + 1) m = true := by
  simp [Memory.wfFrom, and_assoc]

theorem wfFrom_mono (h : Memory.wfFrom cfg lo m = true) {lo' : Nat} (hle : lo' ≤ lo) :
    Memory.wfFrom cfg lo' m = true := by
  cases m with
  | nil => rfl
  | cons e rest =>
    obtain ⟨k, w⟩ := e
    rw [wfFrom_cons] at h ⊢
    exact ⟨by omega, h.2⟩

/-- An address below the first listed one reads as unlisted. -/
theorem read_below (h : Memory.wfFrom cfg lo m = true) (hx : x < lo) :
    Memory.read cfg m x = unlistedCell cfg x := by
  induction m generalizing lo with
  | nil => rfl
  | cons e rest ih =>
    obtain ⟨k, w⟩ := e
    rw [wfFrom_cons] at h
    rw [Memory.read, if_neg (by omega)]
    exact ih h.2.2.2 (by omega)

theorem read_entry_append_other (hx : x ≠ addr) :
    Memory.read cfg (memoryEntry cfg addr v ++ m) x = Memory.read cfg m x := by
  unfold memoryEntry
  split
  · rfl
  · simp [Memory.read, Ne.symm hx]

theorem read_entry_append_same (h : Memory.wfFrom cfg (addr + 1) m = true) :
    Memory.read cfg (memoryEntry cfg addr v ++ m) addr = v := by
  unfold memoryEntry
  split
  · rename_i hv
    exact (read_below h (Nat.lt_succ_self _)).trans hv.symm
  · simp [Memory.read]

theorem wfFrom_entry_append (h : Memory.wfFrom cfg (addr + 1) m = true) (hlo : lo ≤ addr) (ha : addr < memSize) :
    Memory.wfFrom cfg lo (memoryEntry cfg addr v ++ m) = true := by
  unfold memoryEntry
  split
  · exact wfFrom_mono h (by omega)
  · rename_i hv
    exact wfFrom_cons.2 ⟨hlo, ha, hv, h⟩

/-- A write leaves every other address alone. -/
theorem read_write_other (hx : x ≠ addr) :
    Memory.read cfg (Memory.write cfg addr v m) x = Memory.read cfg m x := by
  induction m with
  | nil => simpa [Memory.write] using read_entry_append_other (m := []) (v := v) (cfg := cfg) hx
  | cons e rest ih =>
    obtain ⟨k, w⟩ := e
    rw [Memory.write]
    split
    · exact read_entry_append_other hx
    · split
      · rename_i hk
        rw [read_entry_append_other hx, Memory.read, if_neg (by omega)]
      · simp only [Memory.read, ih]

/-- A read after a write to the same address gives the value written. -/
theorem read_write_same (h : Memory.wfFrom cfg lo m = true) :
    Memory.read cfg (Memory.write cfg addr v m) addr = v := by
  induction m generalizing lo with
  | nil => simpa [Memory.write] using read_entry_append_same (m := []) (addr := addr) (v := v) (cfg := cfg) rfl
  | cons e rest ih =>
    obtain ⟨k, w⟩ := e
    have h' := wfFrom_cons.1 h
    rw [Memory.write]
    split
    · rename_i hk
      exact read_entry_append_same (wfFrom_cons.2 ⟨by omega, h'.2⟩)
    · split
      · rename_i hk
        exact read_entry_append_same (hk ▸ h'.2.2.2)
      · rename_i hk
        rw [Memory.read, if_neg (Ne.symm hk)]
        exact ih h'.2.2.2

theorem read_write (h : Memory.wf cfg m = true) :
    Memory.read cfg (Memory.write cfg addr v m) x = if x = addr then v else Memory.read cfg m x := by
  split
  · rename_i hx
    rw [hx]
    exact read_write_same h
  · rename_i hx
    exact read_write_other hx

/-- A write keeps the canonical form. -/
theorem wfFrom_write (h : Memory.wfFrom cfg lo m = true) (hlo : lo ≤ addr) (ha : addr < memSize) :
    Memory.wfFrom cfg lo (Memory.write cfg addr v m) = true := by
  induction m generalizing lo with
  | nil => simpa [Memory.write] using wfFrom_entry_append (m := []) (v := v) (cfg := cfg) rfl hlo ha
  | cons e rest ih =>
    obtain ⟨k, w⟩ := e
    have h' := wfFrom_cons.1 h
    rw [Memory.write]
    split
    · rename_i hk
      exact wfFrom_entry_append (wfFrom_cons.2 ⟨by omega, h'.2⟩) hlo ha
    · split
      · rename_i hk
        exact wfFrom_entry_append (hk ▸ h'.2.2.2) hlo ha
      · exact wfFrom_cons.2 ⟨h'.1, h'.2.1, h'.2.2.1, ih h'.2.2.2 (by omega)⟩

theorem wf_write (h : Memory.wf cfg m = true) (ha : addr < memSize) :
    Memory.wf cfg (Memory.write cfg addr v m) = true :=
  wfFrom_write h (Nat.zero_le _) ha

/-- What a write can list. -/
theorem mem_of_mem_write {e : Nat × Int} (h : e ∈ Memory.write cfg addr v m) : e = (addr, v) ∨ e ∈ m := by
  have entry : ∀ rest : Memory, e ∈ memoryEntry cfg addr v ++ rest → e = (addr, v) ∨ e ∈ rest := by
    intro rest h
    unfold memoryEntry at h
    split at h
    · exact .inr (by simpa using h)
    · simpa using h
  induction m with
  | nil => exact entry [] (by simpa [Memory.write] using h)
  | cons k rest ih =>
    obtain ⟨k, w⟩ := k
    rw [Memory.write] at h
    split at h
    · exact entry _ h
    · split at h
      · exact (entry _ h).imp_right (List.mem_cons_of_mem _)
      · rcases List.mem_cons.1 h with h | h
        · exact .inr (h ▸ List.mem_cons_self)
        · exact (ih h).imp_right (List.mem_cons_of_mem _)

/-- The memory of an image is in canonical form. -/
theorem wfFrom_imageMemory (cfg : Config) (k : Nat) (image : List Int) (h : k + image.length ≤ memSize) :
    Memory.wfFrom cfg k (imageMemory cfg k image) = true := by
  induction image generalizing k with
  | nil => rfl
  | cons t ts ih =>
    simp only [List.length_cons] at h
    exact wfFrom_entry_append (ih (k + 1) (by omega)) le_rfl (by omega)

/-- Memory after reset is in canonical form. -/
theorem reset_mem_wf : Memory.wf State.reset.cfg State.reset.mem = true := rfl

end Sys2Proof.Machine
end

