-- ==== Sys2Proof/Laws/Ops.lean ====
section
/-! SUPPORT. What each shared operation does: one lemma each for the memory primitives, the store, the branch
multiplexer, the narrowings and the subtractor. -/

namespace Sys2Proof.Machine

variable {s t : State} {addr x : Nat} {v : Int}

/-! ## The memory primitives -/

theorem memRead_inside (h : addr < memSize) (k : Int → Result) : memRead addr s k = k (s.cell addr) :=
  if_pos h

theorem memWrite_inside (h : addr < memSize) (k : State → Result) : memWrite addr v s k = k (storeCell addr v s) :=
  if_pos h

theorem memRead_next {k : Int → Result} (h : memRead addr s k = .next t) :
    addr < memSize ∧ k (s.cell addr) = .next t := by
  unfold memRead at h
  split at h
  · exact ⟨‹_›, h⟩
  · cases h

theorem memWrite_next {k : State → Result} (h : memWrite addr v s k = .next t) :
    addr < memSize ∧ k (storeCell addr v s) = .next t := by
  unfold memWrite at h
  split at h
  · exact ⟨‹_›, h⟩
  · cases h

/-- A store changes memory and nothing else. -/
theorem storeCell_eq (addr : Nat) (v : Int) (s : State) :
    storeCell addr v s =
      { s with mem := if writeDiscarded s.cfg addr then s.mem else Memory.write s.cfg addr v s.mem } := by
  unfold storeCell
  split <;> rfl

@[simp] theorem storeCell_cfg : (storeCell addr v s).cfg = s.cfg := by rw [storeCell_eq]
@[simp] theorem storeCell_pc : (storeCell addr v s).pc = s.pc := by rw [storeCell_eq]
@[simp] theorem storeCell_run : (storeCell addr v s).run = s.run := by rw [storeCell_eq]
@[simp] theorem storeCell_cause : (storeCell addr v s).cause = s.cause := by rw [storeCell_eq]
@[simp] theorem storeCell_irq : (storeCell addr v s).irq = s.irq := by rw [storeCell_eq]
@[simp] theorem storeCell_term : (storeCell addr v s).term = s.term := by rw [storeCell_eq]
@[simp] theorem storeCell_cnt : (storeCell addr v s).cnt = s.cnt := by rw [storeCell_eq]
@[simp] theorem storeCell_buf : (storeCell addr v s).buf = s.buf := by rw [storeCell_eq]
@[simp] theorem storeCell_head : (storeCell addr v s).head = s.head := by rw [storeCell_eq]
@[simp] theorem storeCell_tail : (storeCell addr v s).tail = s.tail := by rw [storeCell_eq]
@[simp] theorem storeCell_out : (storeCell addr v s).out = s.out := by rw [storeCell_eq]
@[simp] theorem storeCell_turns : (storeCell addr v s).turns = s.turns := by rw [storeCell_eq]

/-- What a cell holds after a store (20_memory.md R35). -/
theorem storeCell_cell (h : Memory.wf s.cfg s.mem = true) :
    (storeCell addr v s).cell x = if x = addr ∧ writeDiscarded s.cfg addr = false then v else s.cell x := by
  unfold storeCell
  split
  · rename_i hd
    simp [hd]
  · rename_i hd
    simp only [State.cell, read_write h, hd, and_true]

theorem storeCell_cell_other (hx : x ≠ addr) : (storeCell addr v s).cell x = s.cell x := by
  unfold storeCell
  split
  · rfl
  · exact read_write_other hx

theorem storeCell_discarded (h : writeDiscarded s.cfg addr = true) : storeCell addr v s = s := if_pos h

theorem storeCell_wf (h : Memory.wf s.cfg s.mem = true) (ha : addr < memSize) :
    Memory.wf s.cfg (storeCell addr v s).mem = true := by
  unfold storeCell
  split
  · exact h
  · exact wf_write h ha

theorem mem_of_mem_storeCell {e : Nat × Int} (h : e ∈ (storeCell addr v s).mem) : e = (addr, v) ∨ e ∈ s.mem := by
  unfold storeCell at h
  split at h
  · exact .inr h
  · exact mem_of_mem_write h

/-- The host's write keeps the canonical form. -/
theorem hostStore_wf (h : Memory.wf s.cfg s.mem = true) (ha : addr < memSize) :
    Memory.wf s.cfg (hostStore addr v s).mem = true := wf_write h ha

/-- What a cell holds after the host's write, which no protection discards (20_memory.md R40). -/
theorem hostStore_cell (h : Memory.wf s.cfg s.mem = true) :
    (hostStore addr v s).cell x = if x = addr then v else s.cell x := read_write h

/-! ## The branch multiplexer -/

/-- Everything the branch multiplexer can do (41_subleq.md R83 to R85). -/
theorem branch_cases (r : Int) (c : Int) (s : State) :
    (r ≤ 0 ∧ c = 16777215 ∧ branch r c s = halt s) ∨ (r ≤ 0 ∧ c ≠ 16777215 ∧ branch r c s = jump c s) ∨
      (0 < r ∧ branch r c s = advance s) := by
  unfold branch branchTaken isHaltTarget
  by_cases hr : r ≤ 0
  · by_cases hc : c = ((sentIO : Nat) : Int)
    · exact .inl ⟨hr, hc, by simp [hr, hc]⟩
    · exact .inr (.inl ⟨hr, hc, by rw [if_pos (by simpa using hr), if_neg (by simpa using hc)]⟩)
  · exact .inr (.inr ⟨by omega, by simp [hr]⟩)

/-- The branch multiplexer as one update. -/
theorem branch_eq (r : Int) (c : Int) (s : State) :
    branch r c s =
      { s with
        pc := if r ≤ 0 then (if c = 16777215 then s.pc else c) else s.pc + 3
        run := if r ≤ 0 ∧ c = 16777215 then .halted else s.run } := by
  obtain ⟨hr, hc, h⟩ | ⟨hr, hc, h⟩ | ⟨hr, h⟩ := branch_cases r c s
  · rw [h]; simp [halt, hr, hc]
  · rw [h]; simp [jump, hr, hc]
  · rw [h]; simp [advance, not_le.2 hr]

/-! ## Narrowings and the subtractor -/

theorem subWrapped_range (x y : Int) : -8388608 ≤ subWrapped x y ∧ subWrapped x y ≤ 8388607 := by
  unfold subWrapped sext24 lo24
  split <;> omega

theorem subWrapped_congr (x y : Int) : (x - y - subWrapped x y) % 16777216 = 0 := by
  unfold subWrapped sext24 lo24
  split <;> omega

theorem zext8_range (byte : Byte) : 0 ≤ zext8 byte ∧ zext8 byte ≤ 255 := by
  have := byte.isLt
  unfold zext8
  omega

theorem lo8_toNat (v : Int) : ((lo8 v).toNat : Int) = v % 256 := by
  unfold lo8
  rw [BitVec.toNat_ofNat]
  omega

/-- The integers from −2^24 to 2^24 − 1 fit every cell width R3 allows. -/
theorem fits_of_25_bits {w : Nat} (hw : 25 ≤ w) {v : Int} (hl : -16777216 ≤ v) (hu : v < 16777216) :
    fitsCell w v := by
  have h : (2 : Int) ^ 24 ≤ 2 ^ (w - 1) := pow_le_pow_right₀ (by norm_num) (by omega)
  norm_num at h
  exact ⟨by omega, by omega⟩

end Sys2Proof.Machine
end

