-- ==== Sys2Proof/Laws/Capture.lean ====
section
/-! SUPPORT. What `push` and `pop` do: one lemma each, saying everything (43_keystroke_capture.md R101, R107). -/

namespace Sys2Proof.Machine

variable {s : State} {byte : Byte}

/-- Everything `push` can do (R102 to R106). -/
theorem push_cases (byte : Byte) (s : State) :
    (s.term = true ∧ push byte s = s) ∨
    (s.term = false ∧ byte = intByte ∧ s.cfg.intThreshold < s.cnt + 1 ∧
      push byte s = { s with irq := true, head := 0, tail := 0, cnt := s.cnt + 1, term := true }) ∨
    (s.term = false ∧ byte = intByte ∧ ¬ s.cfg.intThreshold < s.cnt + 1 ∧
      push byte s = { s with irq := true, buf := s.buf.set 0 byte, head := nextSlot s.cfg 0, tail := 0,
                             cnt := s.cnt + 1 }) ∨
    (s.term = false ∧ byte ≠ intByte ∧
      push byte s = { s with cnt := 0, buf := s.buf.set s.head byte, head := nextSlot s.cfg s.head }) := by
  cases ht : s.term with
  | true => exact .inl ⟨rfl, by simp [push, ht]⟩
  | false =>
    by_cases hb : byte = intByte
    · by_cases hn : s.cfg.intThreshold < s.cnt + 1
      · exact .inr (.inl ⟨rfl, hb, hn, by simp [push, noteByte, appendByte, thresholdExceeded, ht, hb, hn]⟩)
      · exact .inr (.inr (.inl ⟨rfl, hb, hn, by simp [push, noteByte, appendByte, thresholdExceeded, ht, hb, hn]⟩))
    · exact .inr (.inr (.inr ⟨rfl, hb, by simp [push, noteByte, appendByte, ht, hb]⟩))

/-- `push` touches neither memory, `pc`, `run`, `cause` nor `out` (R100). -/
theorem push_eq_with (byte : Byte) (s : State) :
    push byte s = { s with
      irq := (push byte s).irq, term := (push byte s).term, cnt := (push byte s).cnt, buf := (push byte s).buf
      head := (push byte s).head, tail := (push byte s).tail } := by
  obtain ⟨-, h⟩ | ⟨-, -, -, h⟩ | ⟨-, -, -, h⟩ | ⟨-, -, h⟩ := push_cases byte s <;> rw [h]

@[simp] theorem push_cfg : (push byte s).cfg = s.cfg := by rw [push_eq_with]
@[simp] theorem push_mem : (push byte s).mem = s.mem := by rw [push_eq_with]
@[simp] theorem push_pc : (push byte s).pc = s.pc := by rw [push_eq_with]
@[simp] theorem push_run : (push byte s).run = s.run := by rw [push_eq_with]
@[simp] theorem push_cause : (push byte s).cause = s.cause := by rw [push_eq_with]
@[simp] theorem push_out : (push byte s).out = s.out := by rw [push_eq_with]
@[simp] theorem push_turns : (push byte s).turns = s.turns := by rw [push_eq_with]

/-- Everything `pop` can do (R107). -/
theorem pop_cases (s : State) :
    (s.head = s.tail ∧ pop s = (none, s)) ∨
    (s.head ≠ s.tail ∧
      pop s = (some (s.buf.getD s.tail 0), { s with tail := nextSlot s.cfg s.tail })) := by
  unfold pop
  split
  · exact .inl ⟨‹_›, rfl⟩
  · exact .inr ⟨‹_›, rfl⟩

/-- `pop` writes `tail` only (R107). -/
theorem pop_state (s : State) :
    (pop s).2 = { s with tail := if s.head = s.tail then s.tail else nextSlot s.cfg s.tail } := by
  obtain ⟨h, e⟩ | ⟨h, e⟩ := pop_cases s
  · rw [e, if_pos h]
  · rw [e, if_neg h]

/-- The value IN stores lies in 0 to 255 or is the no-data value (42_io_ports.md R92). -/
theorem inputCell_cases (r : Option Byte) :
    (r = none ∧ inputCell r = 16777215) ∨ (∃ byte, r = some byte ∧ inputCell r = zext8 byte) := by
  cases r with
  | none => exact .inl ⟨rfl, rfl⟩
  | some byte => exact .inr ⟨byte, rfl, rfl⟩

end Sys2Proof.Machine
end

