-- ==== Sys2Proof/Laws/Step.lean ====
section
/-! SUPPORT. The meanings inside memory, their inversion, and everything one step can do. -/

namespace Sys2Proof.Machine

variable {s t : State}

/-! ## The meanings of well-formed instructions -/

theorem exec_out {a : Nat} (h : a < memSize) (c : Int) (s : State) :
    exec (.out a c) s = .next (advance (emit (lo8 (s.cell a)) s)) := by
  simp only [exec, execOut, memRead_inside h]

theorem exec_inp {b : Nat} (h : b < memSize) (c : Int) (s : State) :
    exec (.inp b c) s =
      .next (advance (storeCell b (inputCell (pop (clearIrq s)).1) (pop (clearIrq s)).2)) := by
  simp only [exec, execInp, memWrite_inside h]

theorem exec_irq {b : Nat} (h : b < memSize) (c : Int) (s : State) :
    exec (.irq b c) s = .next (advance (clearIrq (storeCell b (flagCell s.irq) s))) := by
  simp only [exec, execIrq, memWrite_inside h]

theorem exec_subleq {a b : Nat} (ha : a < memSize) (hb : b < memSize) (c : Int) (s : State) :
    exec (.subleq a b c) s =
      .next (branch (subWrapped (s.cell b) (s.cell a)) c
        (storeCell b (subWrapped (s.cell b) (s.cell a)) s)) := by
  simp only [exec, execSubleq, memRead_inside ha, memRead_inside hb, memWrite_inside hb]

/-- Everything an instruction can do when it answers a next state. -/
theorem exec_next {i : Instr} (h : exec i s = .next t) :
    (∃ a c, i = .out a c ∧ a < memSize ∧ t = advance (emit (lo8 (s.cell a)) s)) ∨
    (∃ b c, i = .inp b c ∧ b < memSize ∧
      t = advance (storeCell b (inputCell (pop (clearIrq s)).1) (pop (clearIrq s)).2)) ∨
    (∃ b c, i = .irq b c ∧ b < memSize ∧ t = advance (clearIrq (storeCell b (flagCell s.irq) s))) ∨
    (∃ a b c, i = .subleq a b c ∧ a < memSize ∧ b < memSize ∧
      t = branch (subWrapped (s.cell b) (s.cell a)) c (storeCell b (subWrapped (s.cell b) (s.cell a)) s)) := by
  cases i with
  | out a c =>
    simp only [exec, execOut] at h
    obtain ⟨ha, h⟩ := memRead_next h
    exact .inl ⟨a, c, rfl, ha, by injection h with h; exact h.symm⟩
  | inp b c =>
    simp only [exec, execInp] at h
    obtain ⟨hb, h⟩ := memWrite_next h
    exact .inr (.inl ⟨b, c, rfl, hb, by injection h with h; exact h.symm⟩)
  | irq b c =>
    simp only [exec, execIrq] at h
    obtain ⟨hb, h⟩ := memWrite_next h
    exact .inr (.inr (.inl ⟨b, c, rfl, hb, by injection h with h; exact h.symm⟩))
  | subleq a b c =>
    simp only [exec, execSubleq] at h
    obtain ⟨ha, h⟩ := memRead_next h
    obtain ⟨hb, h⟩ := memRead_next h
    obtain ⟨-, h⟩ := memWrite_next h
    exact .inr (.inr (.inr ⟨a, b, c, rfl, ha, hb, by injection h with h; exact h.symm⟩))

/-! ## The cycle -/

/-- Everything `issue` can answer (40_cycle.md R65). -/
theorem issue_cases (s : State) :
    (s.term = true ∧ issue s = .error (.next (terminate s))) ∨
    (s.term = false ∧ (s.pc < 0 ∨ 16777216 ≤ s.pc) ∧ issue s = .error (.next (raiseFault .pcRange s))) ∨
    (s.term = false ∧ (s.pc = 16777214 ∨ s.pc = 16777215) ∧
      issue s = .error (.next (raiseFault .fetchRange s))) ∨
    (s.term = false ∧ 0 ≤ s.pc ∧ s.pc ≤ 16777213 ∧
      ((∃ i, decode (fetch s) = .ok i ∧ issue s = .ok i) ∨
        ∃ r, decode (fetch s) = .error r ∧ issue s = .error (rejected r s))) := by
  cases ht : s.term with
  | true => exact .inl ⟨rfl, by simp [issue, ht]⟩
  | false =>
    by_cases hp : s.pc < 0 ∨ (16777216 : Int) ≤ s.pc
    · refine .inr (.inl ⟨rfl, hp, ?_⟩)
      have : pcOutOfRange s = true := by simpa [pcOutOfRange] using hp
      simp [issue, ht, this]
    · have hp' : pcOutOfRange s = false := by
        simp only [pcOutOfRange, Bool.or_eq_false_iff, decide_eq_false_iff_not, memSize_cast]
        omega
      by_cases hf : (16777216 : Int) ≤ s.pc + 2
      · refine .inr (.inr (.inl ⟨rfl, by omega, ?_⟩))
        have : fetchOutOfRange s = true := by simpa [fetchOutOfRange] using hf
        simp [issue, ht, hp', this]
      · have hf' : fetchOutOfRange s = false := by simpa [fetchOutOfRange] using hf
        refine .inr (.inr (.inr ⟨rfl, by omega, by omega, ?_⟩))
        cases hd : decode (fetch s) with
        | ok i => exact .inl ⟨i, rfl, by simp [issue, ht, hp', hf', hd]⟩
        | error r => exact .inr ⟨r, rfl, by simp [issue, ht, hp', hf', hd]⟩

/-- Everything the decoder can answer. -/
theorem decode_cases (t : Triple) :
    (16777216 ≤ t.a ∧ decode t = .error .aHigh) ∨
    (t.a < 16777216 ∧ 16777216 ≤ t.b ∧ decode t = .error .bHigh) ∨
    (t.a < 0 ∧ t.b < 16777216 ∧ decode t = .error .aNeg) ∨
    (0 ≤ t.a ∧ t.a < 16777216 ∧ t.b < 0 ∧ decode t = .error .bNeg) ∨
    (0 ≤ t.a ∧ t.a < 16777216 ∧ 0 ≤ t.b ∧ t.b < 16777216 ∧
      decode t = .ok (assemble (selectForm t.a.toNat t.b.toNat) t.a.toNat t.b.toNat t.c)) := by
  have hm := memSize_cast
  simp only [decode]
  split
  · exact .inl ⟨‹_›, rfl⟩
  · split
    · exact .inr (.inl ⟨by omega, ‹_›, rfl⟩)
    · split
      · exact .inr (.inr (.inl ⟨‹_›, by omega, rfl⟩))
      · split
        · exact .inr (.inr (.inr (.inl ⟨by omega, by omega, ‹_›, rfl⟩)))
        · exact .inr (.inr (.inr (.inr ⟨by omega, by omega, by omega, by omega, rfl⟩)))

/-- Everything a rejected triple leads to (R70, R71). -/
theorem rejected_cases (r : Reject) (s : State) :
    (∃ cause, cause ≠ .none ∧ rejected r s = .next (raiseFault cause s)) ∨
    (s.cfg.negOperandFault = false ∧ (rejected r s = .refused .negativeA ∨ rejected r s = .refused .negativeB)) := by
  cases r with
  | aHigh => exact .inl ⟨.aHigh, by decide, rfl⟩
  | bHigh => exact .inl ⟨.bHigh, by decide, rfl⟩
  | aNeg =>
    cases h : s.cfg.negOperandFault with
    | true => exact .inl ⟨.aNeg, by decide, by simp [rejected, h]⟩
    | false => exact .inr ⟨rfl, .inl (by simp [rejected, h])⟩
  | bNeg =>
    cases h : s.cfg.negOperandFault with
    | true => exact .inl ⟨.bNeg, by decide, by simp [rejected, h]⟩
    | false => exact .inr ⟨rfl, .inr (by simp [rejected, h])⟩

/-- The ways an engine cycle gives a next state. -/
theorem engineCycle_next (h : engineCycle s = .next t) :
    (s.term = true ∧ t = terminate s) ∨
    (s.term = false ∧ ∃ cause, cause ≠ .none ∧ t = raiseFault cause s) ∨
    (s.term = false ∧ 0 ≤ s.pc ∧ s.pc ≤ 16777213 ∧ ∃ i, decode (fetch s) = .ok i ∧ issue s = .ok i ∧
      exec i s = .next t) := by
  unfold engineCycle at h
  obtain ⟨ht, e⟩ | ⟨ht, -, e⟩ | ⟨ht, -, e⟩ | ⟨ht, h0, h1, ⟨i, hd, e⟩ | ⟨r, -, e⟩⟩ := issue_cases s <;>
    rw [e] at h
  · exact .inl ⟨ht, by injection h with h; exact h.symm⟩
  · exact .inr (.inl ⟨ht, .pcRange, by decide, by injection h with h; exact h.symm⟩)
  · exact .inr (.inl ⟨ht, .fetchRange, by decide, by injection h with h; exact h.symm⟩)
  · exact .inr (.inr ⟨ht, h0, h1, i, hd, e, h⟩)
  · obtain ⟨cause, hc, e⟩ | ⟨-, e | e⟩ := rejected_cases r s
    · exact .inr (.inl ⟨ht, cause, hc, by rw [e] at h; injection h with h; exact h.symm⟩)
    · rw [e] at h; cases h
    · rw [e] at h; cases h

/-- The ways a step gives a next state: a push, or an engine cycle, of the state without the turn taken. -/
theorem step_next (h : step s = .next t) :
    s.run = .running ∧
      ((∃ byte, nextTurn s = .capture byte ∧ t = push byte (dropTurn s)) ∨
        (nextTurn s = .engine ∧ engineCycle (dropTurn s) = .next t)) := by
  unfold step at h
  cases hr : s.run <;> rw [hr] at h
  case running =>
    refine ⟨rfl, ?_⟩
    simp only [agentStep] at h
    cases hn : nextTurn s with
    | engine => rw [hn] at h; exact .inr ⟨rfl, h⟩
    | capture byte =>
      rw [hn] at h
      exact .inl ⟨byte, rfl, by simp only [captureStep] at h; injection h with h; exact h.symm⟩
  all_goals cases h

/-- Every step takes exactly one turn off the schedule (R5). -/
theorem step_turns (h : step s = .next t) : t.turns = s.turns.rest := by
  obtain ⟨-, ⟨byte, -, rfl⟩ | ⟨-, h⟩⟩ := step_next h
  · simp
  obtain ⟨-, rfl⟩ | ⟨-, cause, -, rfl⟩ | ⟨-, -, -, i, -, -, h⟩ := engineCycle_next h
  · rfl
  · rfl
  obtain ⟨a, c, -, -, rfl⟩ | ⟨b, c, -, -, rfl⟩ | ⟨b, c, -, -, rfl⟩ | ⟨a, b, c, -, -, -, rfl⟩ := exec_next h <;>
    simp [pop_state, branch_eq]

theorem step_engine (hr : s.run = .running) (hn : nextTurn s = .engine) :
    step s = engineCycle (dropTurn s) := by
  simp [step, agentStep, hr, hn]

theorem step_capture {byte : Byte} (hr : s.run = .running) (hn : nextTurn s = .capture byte) :
    step s = .next (push byte (dropTurn s)) := by
  simp [step, agentStep, captureStep, hr, hn]

end Sys2Proof.Machine
end

