-- ==== Sys2Proof/Laws/PerInstr.lean ====
section
/-! SUPPORT. A law of each instruction as syntax: the operand cells its encoding stores pass the operand range
checks (40_cycle.md R70, R71). -/

namespace Sys2Proof.Laws.EncodedOperands

/-- The cells `a` and `b` of a well-formed instruction's encoding lie in [0, 2^24). -/
def Statement (i : Instr) : Prop :=
  i.wellFormed = true →
    (0 ≤ (encode i).a ∧ (encode i).a < memSize) ∧ (0 ≤ (encode i).b ∧ (encode i).b < memSize)

theorem out (a : Nat) (c : Int) : Statement (.out a c) := by
  intro h
  have hm := Machine.memSize_cast
  have hs := Machine.sentIO_cast
  have hq := Machine.sentIRQ_cast
  simp only [Instr.wellFormed, addrInRange, decide_eq_true_eq] at h
  simp only [encode]
  omega

theorem inp (b : Nat) (c : Int) : Statement (.inp b c) := by
  intro h
  have hm := Machine.memSize_cast
  have hs := Machine.sentIO_cast
  have hq := Machine.sentIRQ_cast
  simp only [Instr.wellFormed, addrInRange, Bool.and_eq_true, decide_eq_true_eq] at h
  simp only [encode]
  omega

theorem irq (b : Nat) (c : Int) : Statement (.irq b c) := by
  intro h
  have hm := Machine.memSize_cast
  have hs := Machine.sentIO_cast
  have hq := Machine.sentIRQ_cast
  simp only [Instr.wellFormed, addrInRange, Bool.and_eq_true, decide_eq_true_eq] at h
  simp only [encode]
  omega

theorem subleq (a b : Nat) (c : Int) : Statement (.subleq a b c) := by
  intro h
  have hm := Machine.memSize_cast
  have hs := Machine.sentIO_cast
  have hq := Machine.sentIRQ_cast
  simp only [Instr.wellFormed, addrInRange, Bool.and_eq_true, decide_eq_true_eq] at h
  simp only [encode]
  omega

end Sys2Proof.Laws.EncodedOperands
end

