-- ==== Sys2Proof/Tests/Slice0.lean ====
section
/-! SUPPORT. The model's own tests: expected results are the spec's examples and vectors (95_test_vectors.md, cited by
number), and one witness for the hypotheses of each statement. -/

namespace Sys2Proof.Machine.Tests

/-- The state at release with parameters and an image, its first turn listed as the engine's. -/
def demoWith (cfg : Config) (image : List Int) : State :=
  { State.atRelease cfg (imageMemory cfg 0 image) with turns := ⟨[.engine], 0⟩ }

/-- The same under the parameters of the spec's vectors. -/
def demo (image : List Int) : State := demoWith Config.reference image

/-- The next state a step or an instruction answers. -/
def after : Result → Option State
  | .next s => some s
  | .fault _ => none
  | .refused _ => none

/-! ## Well-formedness: each check refuses an ill-formed instruction -/

theorem test_wf_out_high : (Instr.out 16777216 0).wellFormed = false := by decide
theorem test_wf_inp_high : (Instr.inp 16777216 0).wellFormed = false := by decide
theorem test_wf_inp_sentinel : (Instr.inp 16777215 0).wellFormed = false := by decide
theorem test_wf_irq_high : (Instr.irq 16777216 0).wellFormed = false := by decide
theorem test_wf_irq_sentinel : (Instr.irq 16777215 0).wellFormed = false := by decide
theorem test_wf_subleq_a_high : (Instr.subleq 16777216 0 0).wellFormed = false := by decide
theorem test_wf_subleq_b_high : (Instr.subleq 0 16777216 0).wellFormed = false := by decide
theorem test_wf_subleq_b_sentinel : (Instr.subleq 0 16777215 0).wellFormed = false := by decide
theorem test_wf_subleq_a_in : (Instr.subleq 16777215 0 0).wellFormed = false := by decide
theorem test_wf_subleq_a_irq : (Instr.subleq 16777214 0 0).wellFormed = false := by decide

/-! ## Decoding: words written out from the layout a[71:48], b[47:24], c[23:0] of R52 -/

/-- V60: a = 0x000003, b = 0xFFFFFF, c = 0x000000. -/
theorem test_decode_out : decodeTableWord 72 0x000003FFFFFF000000 = some (.out 3 0) := by decide
/-- V108: a = 0xFFFFFF, b = 0x000009, c = 0xFFFFFF. -/
theorem test_decode_inp : decodeTableWord 72 0xFFFFFF000009FFFFFF = some (.inp 9 0xFFFFFF) := by decide
/-- V105: a = b = 0xFFFFFE. -/
theorem test_decode_irq : decodeTableWord 72 0xFFFFFEFFFFFE000000 = some (.irq 0xFFFFFE 0) := by decide
/-- V106: a = 0x00000A, b = 0xFFFFFE. -/
theorem test_decode_subleq : decodeTableWord 72 0x00000AFFFFFE000000 = some (.subleq 10 0xFFFFFE 0) := by decide
/-- V77 to V80, V82: negative and high operands are no sentinels, and the order of the checks. -/
theorem test_decode_rejects :
    decode ⟨-1, 16777216, 0⟩ = .error .bHigh ∧ decode ⟨-1, 0, 0⟩ = .error .aNeg ∧ decode ⟨0, -1, 0⟩ = .error .bNeg ∧
      decode ⟨-1, -1, 0⟩ = .error .aNeg ∧ decode ⟨0x1FFFFFF, 5, 0⟩ = .error .aHigh := by decide

/-! ## The subtractor: V2, V10, V11, V12, V19, V23 -/

theorem test_sub_wrapped :
    subWrapped 0 1 = -1 ∧ subWrapped 8388608 0 = -8388608 ∧ subWrapped (-8388608) 1 = 8388607 ∧
      subWrapped 8388607 (-1) = -8388608 ∧ subWrapped 0 16777215 = 1 ∧ subWrapped 16777221 0 = 5 := by decide

/-! ## The instructions, one step each -/

/-- V27: not taken, and `c` = 0xFFFFFF does not halt then. -/
theorem test_subleq_not_taken :
    ((after (step (demo [3, 4, 0xFFFFFF, 1, 5]))).map fun s => (s.cell 4, s.pc, s.run)) = some (4, 3, .running) := by
  decide
/-- V42: the store is discarded and the branch tests the computed −4. -/
theorem test_subleq_discarded :
    ((after (step (demo [0xFFFF05, 0xFFFF01, 9]))).map fun s => (s.cell 0xFFFF01, s.pc, s.mem)) =
      some (1, 9, (demo [0xFFFF05, 0xFFFF01, 9]).mem) := by decide
/-- V64: the low 8 bits of 321. -/
theorem test_out_low_byte :
    ((after (step (demo [3, 0xFFFFFF, 0, 321]))).map fun s => (s.out, s.pc)) = some ([0x41], 3) := by decide
/-- V102: `a` = `b` = 0xFFFFFF is OUT of the cell at 0xFFFFFF. -/
theorem test_out_sentinel_cell :
    ((after (step (demo [0xFFFFFF, 0xFFFFFF, 0]))).map fun s => s.out) = some [0xFF] := by decide
/-- V90: the byte 3 is data, and IN clears the flag. -/
theorem test_inp_interrupt_byte :
    ((after (step (push 3 (demo [0xFFFFFF, 9, 0])))).map fun s => (s.cell 9, s.irq, s.cnt, s.tail, s.pc)) =
      some (3, false, 1, 1, 3) := by decide
/-- V87: no data is 16,777,215. -/
theorem test_inp_no_data :
    ((after (step (demo [0xFFFFFF, 9, 0]))).map fun s => (s.cell 9, s.head, s.tail, s.pc)) =
      some (16777215, 0, 0, 3) := by decide
/-- V96: the flag is stored and cleared; nothing is popped. -/
theorem test_irq_set :
    ((after (step (push 3 (demo [0xFFFFFE, 9, 0])))).map fun s => (s.cell 9, s.irq, s.head, s.tail)) =
      some (1, false, 1, 0) := by decide
/-- V101: a discarded store still consumes the flag. -/
theorem test_irq_discarded :
    ((after (step (push 3 (demo [0xFFFFFE, 0xFFFF10, 0])))).map fun s => (s.cell 0xFFFF10, s.irq, s.pc)) =
      some (16, false, 3) := by decide

/-! ## Faults, terminate, the two agents -/

/-- V70: FETCH_RANGE. -/
theorem test_fetch_range :
    ((after (step { demo [] with pc := 16777215 })).map fun s => (s.run, s.cause, s.pc)) =
      some (.faulted, .fetchRange, 16777215) := by decide
/-- V83: an IN with a bad `b` faults before the pop and before the flag is cleared. -/
theorem test_fault_precise :
    ((after (step (push 3 (push 0x41 (demo [0xFFFFFF, 0x1000000, 0]))))).map fun s =>
      (s.run, s.cause, s.irq, s.head, s.tail)) = some (.faulted, .bHigh, true, 1, 0) := by decide
/-- V84: the terminate check comes first. -/
theorem test_terminate_first :
    ((after (step { pushAll [3, 3, 3, 3] (demo []) with pc := -5 })).map fun s => (s.run, s.cause, s.pc)) =
      some (.terminated, .none, -5) := by decide
/-- V79 with `NEG_OPERAND_FAULT` false: refused (U1). -/
theorem test_negative_refused :
    (match step (demoWith { Config.reference with negOperandFault := false } [0, -1, 0]) with
      | .refused r => some r
      | .next _ => none
      | .fault _ => none) = some .negativeB := by decide
/-- R74: no step once the run is over. -/
theorem test_run_over :
    (match step { demo [] with run := .halted } with
      | .fault f => some f
      | .next _ => none
      | .refused _ => none) = some .runHalted := by decide
/-- A capture turn pushes its byte and leaves the cycle to the next turn (R5). -/
theorem test_capture_turn :
    ((after (step { demo [0, 0, 0] with turns := ⟨[.capture 0x41, .engine], 0⟩ })).map fun s => (visible s, s.pc, s.turns)) =
      some ([0x41], 0, ⟨[.engine], 0⟩) := by decide

/-! ## The ring buffer: V32, V53, V59 and the trace of 43_keystroke_capture.md section 5 -/

theorem test_overflow_nine :
    visible (pushAll [0x30, 0x31, 0x32, 0x33, 0x34, 0x35, 0x36, 0x37, 0x38] (demo [])) = [0x38] := by decide
theorem test_terminate_at_four :
    (let s := pushAll [3, 3, 3, 3] (demo []); (s.cnt, s.term, s.irq, s.head, s.tail)) = (4, true, true, 0, 0) := by decide
theorem test_byte_four_is_ordinary :
    (let s := push 4 (demo []); (s.head, s.buf.head?, s.irq, s.cnt)) = (1, some 4, false, 0) := by decide
theorem test_trace_step_six :
    (let s := pushAll [3, 3, 0x43] (demo []); (visible s, s.irq, s.cnt)) = ([3, 0x43], true, 0) := by decide

/-! ## Boot, image text, status codes, the memory port -/

/-- The example of R60. -/
theorem test_launch_halt_triple :
    (match launch Config.reference "any header text\n0 0 FFFFFF\n".toList with
      | .ok s => decide (s = State.atRelease Config.reference [(2, 16777215)])
      | .error _ => false) = true := by decide
/-- U5: a prefixed token is refused. -/
theorem test_launch_bad_token :
    (match launch Config.reference "header\n0x3".toList with
      | .ok _ => none
      | .error e => some e) = some .badToken := by decide
/-- R31: the identity table, and the sentinel addresses with the illustration's base. -/
theorem test_table : (demo []).cell 0xFFFF41 = 0x41 ∧ (demo []).cell 0xFFFFFE = 254 ∧ (demo []).cell 0xFFFEFF = 0 := by
  decide
/-- R14 and R116. -/
theorem test_status_codes :
    runCode .terminated = 3 ∧ runCode .faulted = 2 ∧ causeCode .pcRange = 1 ∧ causeCode .bNeg = 6 := by decide
/-- R38, R39: SUBLEQ reads the triple, `mem[a]`, `mem[b]`, and then writes. -/
theorem test_port_order :
    cycleAccesses (demo [3, 4, 9, 7, 5]) = [.read 0, .read 1, .read 2, .read 3, .read 4, .write 4 (-2)] := by decide
/-- The first step after placing a word runs it: V60's OUT of cell 3, which holds 0. -/
theorem test_with_fetch_word :
    ((after (step (State.reset.withFetchWord 72 0x000003FFFFFF000000))).map fun s => (s.out, s.pc)) =
      some ([0], 3) := by decide
/-- The same from a machine that has stopped with a capture turn scheduled. -/
theorem test_with_fetch_word_stopped :
    ((after (step ({ demo [] with run := .faulted, cause := .pcRange, pc := -1, turns := ⟨[.capture 3], 0⟩ }.withFetchWord 72
      0x000003FFFFFF000000))).map fun s => (s.out, s.pc, s.turns)) = some ([0], 3, ⟨[.capture 3], 0⟩) := by decide

/-! ## Witnesses: for each statement with hypotheses, values that meet all of them -/

theorem demo_inv (image : List Int) (hf : ∀ e ∈ (demo image).mem, fitsCell 32 e.2)
    (hw : Memory.wf Config.reference (demo image).mem = true) : (demo image).Inv where
  cfg_ok := show Config.reference.wf by decide
  mem_ok := hw
  cells_fit := hf
  pc_ok := .inl (show fitsCell 32 0 by decide)
  buf_len := rfl
  head_lt := show 0 < 8 by decide
  tail_lt := show 0 < 8 by decide
  cnt_le := Nat.zero_le _
  term_iff := show false = true ↔ 3 < 0 by decide
  term_empty := fun h => Bool.noConfusion h
  cause_iff := show Cause.none ≠ .none ↔ RunState.running = .faulted by decide
  term_run := show (RunState.running = .terminated → false = true) ∧
    (RunState.running = .halted ∨ RunState.running = .faulted → false = false) by decide

/-- A legal state about to run each form. -/
theorem inv_subleq : (demo [3, 4, 9, 7, 5]).Inv := demo_inv _ (by decide) (by decide)
theorem inv_out : (demo [3, 0xFFFFFF, 0, 321]).Inv := demo_inv _ (by decide) (by decide)
theorem inv_inp : (demo [0xFFFFFF, 9, 0]).Inv := demo_inv _ (by decide) (by decide)

theorem performs_subleq : performs (demo [3, 4, 9, 7, 5]) (.subleq 3 4 9) := ⟨⟨rfl, rfl⟩, rfl⟩
theorem performs_out : performs (demo [3, 0xFFFFFF, 0, 321]) (.out 3 0) := ⟨⟨rfl, rfl⟩, rfl⟩
theorem performs_inp : performs (demo [0xFFFFFF, 9, 0]) (.inp 9 0) := ⟨⟨rfl, rfl⟩, rfl⟩

theorem witness_DecodeOfEncodeIsIdentity :
    (Instr.out 16777215 (-7)).wellFormed = true ∧ (Instr.inp 16777214 0).wellFormed = true ∧
      (Instr.irq 0 0).wellFormed = true ∧ (Instr.subleq 16777213 16777214 16777216).wellFormed = true := by decide
theorem witness_EncodeOfDecodeIsIdentity : decode ⟨16777213, 16777214, -1⟩ = .ok (.subleq 16777213 16777214 (-1)) := by decide
theorem witness_FormChosenByPriority : (0 : Int) ≤ 16777215 ∧ (16777215 : Int) < 2 ^ 24 := by decide
theorem witness_TableWordsDecodeAndEncodeBack : 0xFFFFFFFFFFFFFFFFFF < 2 ^ 72 := by decide
theorem witness_OnlyOutOfRangeOperandsAreRejected :
    (2 : Int) ^ 24 ≤ 16777216 ∧ (16777215 : Int) < 2 ^ 24 ∧ (-1 : Int) < 0 := by decide
theorem witness_BootMemoryHoldsImageAndTable :
    Config.reference.wf ∧ [3, -1].length ≤ Config.reference.tableBase ∧
      ∀ t ∈ [(3 : Int), -1], fitsCell Config.reference.cellW t := by decide
theorem witness_BootLeavesResetValues :
    (match boot Config.reference [0, 0, 16777215] with | .ok _ => true | .error _ => false) = true := by decide
/-- Also the witness of BootedStateIsLegal and ImageTokensBecomeCells. -/
theorem witness_ImageTokensBecomeCells :
    (match launch Config.reference "h\n3 4 FFFFFF".toList with | .ok _ => true | .error _ => false) = true ∧
      2 < (splitTokens [] (afterHeader "h\n3 4 FFFFFF".toList)).length := by decide
theorem witness_LaunchRefusedBeyondItsPremise :
    ({ Config.reference with tableBase := 1 } : Config).wf ∧ 1 < [(0 : Int), 0].length ∧
      Config.reference.wf ∧ ¬ fitsCell Config.reference.cellW (2 ^ 31) := by decide
theorem witness_SubleqResult :
    (Instr.subleq 3 4 9).wellFormed = true ∧ Memory.wf (demo [3, 4, 9, 7, 5]).cfg (demo [3, 4, 9, 7, 5]).mem = true := by decide
theorem witness_OutResult : (Instr.out 16777215 0).wellFormed = true := by decide
theorem witness_InResult_data :
    (Instr.inp 9 0).wellFormed = true ∧ Memory.wf (demo []).cfg (demo []).mem = true ∧
      (push 0x41 (demo [])).tail < (push 0x41 (demo [])).buf.length ∧ (push 0x41 (demo [])).head ≠ (push 0x41 (demo [])).tail := by decide
theorem witness_InResult_empty :
    (Instr.inp 9 0).wellFormed = true ∧ (demo []).tail < (demo []).buf.length ∧ (demo []).head = (demo []).tail := by decide
theorem witness_IrqResult : (Instr.irq 9 0).wellFormed = true ∧ Memory.wf (demo []).cfg (demo []).mem = true := by decide
/-- Also the witness of InstructionMemoryFrame: the instruction answers a next state. -/
theorem witness_InstructionRegisterFrame :
    (after (exec (.subleq 3 4 9) (demo [3, 4, 9, 7, 5]))).isSome = true ∧ (after (exec (.out 3 0) (demo []))).isSome = true ∧
      (after (exec (.inp 9 0) (demo []))).isSome = true ∧ (after (exec (.irq 9 0) (demo []))).isSome = true := by decide
theorem witness_SequencerAddsThreeWithoutWrap_ports :
    performs (demo [3, 0xFFFFFF, 0, 321]) (.out 3 0) ∧
      ∀ a b c, Instr.out 3 0 = .subleq a b c →
        0 < subWrapped ((demo [3, 0xFFFFFF, 0, 321]).cell b) ((demo [3, 0xFFFFFF, 0, 321]).cell a) :=
  ⟨performs_out, fun _ _ _ h => by cases h⟩
/-- An untaken branch in the topmost triple, and an engine turn after it. -/
def atTop : State :=
  { demo [] with pc := 16777213, mem := [(253, 1), (254, 5)], turns := ⟨[.engine, .engine], 0⟩ }
theorem witness_SequencerAddsThreeWithoutWrap_top :
    performs atTop (.subleq 253 254 255) ∧
      (∀ a b c, Instr.subleq 253 254 255 = .subleq a b c → 0 < subWrapped (atTop.cell b) (atTop.cell a)) ∧
      ((after (step atTop)).map fun t => (t.pc, nextTurn t)) = some (16777216, .engine) := by
  refine ⟨⟨⟨rfl, rfl⟩, rfl⟩, fun a b c h => ?_, by decide⟩
  injection h with ha hb
  subst ha hb
  decide
/-- V37: `b` = `pc` + 2. -/
theorem witness_StoreIntoOwnTripleActsOnNextFetch :
    performs (demo [3, 2, 6, 6]) (.subleq 3 2 6) ∧ Memory.wf (demo [3, 2, 6, 6]).cfg (demo [3, 2, 6, 6]).mem = true ∧
      ((2 : Nat) : Int) = (demo [3, 2, 6, 6]).pc + 2 := ⟨⟨⟨rfl, rfl⟩, rfl⟩, by decide, by decide⟩
theorem witness_SelfSubtractionClearsAndBranches : (Instr.subleq 0 0 0xFFFFFF).wellFormed = true := by decide
theorem witness_StepRunsDecodedInstruction :
    engineNext (demo [3, 4, 9, 7, 5]) ∧ (demo [3, 4, 9, 7, 5]).term = false ∧
      decode ⟨(demo [3, 4, 9, 7, 5]).cell 0, (demo [3, 4, 9, 7, 5]).cell 1, (demo [3, 4, 9, 7, 5]).cell 2⟩ =
        .ok (.subleq 3 4 9) := ⟨⟨rfl, rfl⟩, rfl, by decide⟩
theorem witness_TerminateCheckedFirst :
    engineNext (pushAll [3, 3, 3, 3] (demo [])) ∧ (pushAll [3, 3, 3, 3] (demo [])).term = true := ⟨⟨rfl, rfl⟩, by decide⟩
theorem witness_FetchRangeFault :
    engineNext { demo [] with pc := 16777214 } ∧ ({ demo [] with pc := 16777214 } : State).term = false ∧
      ((16777214 : Int) = 2 ^ 24 - 2) ∧ ((16777213 : Int) ≤ 2 ^ 24 - 3) := ⟨⟨rfl, rfl⟩, rfl, by decide, by decide⟩
theorem witness_FaultPriorityOrder_pc :
    engineNext { demo [] with pc := 16777216 } ∧ (2 : Int) ^ 24 ≤ 16777216 ∧ engineNext { demo [] with pc := -1 } :=
  ⟨⟨rfl, rfl⟩, by decide, ⟨rfl, rfl⟩⟩
theorem witness_FaultPriorityOrder_high :
    engineNext (demo [16777216, 16777216, 0]) ∧ (2 : Int) ^ 24 ≤ (demo [16777216, 16777216, 0]).cell 0 ∧
      (demo [-1, 16777216, 0]).cell 0 < 2 ^ 24 ∧ (2 : Int) ^ 24 ≤ (demo [-1, 16777216, 0]).cell 1 :=
  ⟨⟨rfl, rfl⟩, by decide, by decide, by decide⟩
theorem witness_FaultPriorityOrder_negative :
    (demo [-1, -1, 0]).cell 0 < 0 ∧ (demo [-1, -1, 0]).cell 1 < 2 ^ 24 ∧ (demo [0, -1, 0]).cell 0 = 0 ∧
      (demo [0, -1, 0]).cell 1 < 0 ∧ (demo [0, -1, 0]).cfg.negOperandFault = true := by decide
theorem witness_NegativeOperandRefusedInAlternate :
    engineNext (demoWith { Config.reference with negOperandFault := false } [-1, 0, 0]) ∧
      (demoWith { Config.reference with negOperandFault := false } [-1, 0, 0]).cell 0 < 0 ∧
      (demoWith { Config.reference with negOperandFault := false } [0, -1, 0]).cell 1 < 0 := ⟨⟨rfl, rfl⟩, by decide, by decide⟩
theorem witness_FaultsArePrecise :
    ((after (step (demo [16777216, 0, 0]))).map fun t => t.run) = some .faulted := by decide
/-- The fault way of CycleEndsInOneOfFiveWays is the state above; the other four. -/
theorem witness_CycleEndsInOneOfFiveWays :
    ((after (step (pushAll [3, 3, 3, 3] (demo [])))).map fun t => t.run) = some .terminated ∧
      ((after (step (demo [0, 0, 0xFFFFFF]))).map fun t => t.run) = some .halted ∧
      ((after (step (demo [3, 4, 9, 1, 5]))).map fun t => t.pc) = some 3 ∧
      ((after (step (demo [3, 4, 9, 7, 5]))).map fun t => t.pc) = some 9 := by decide
theorem witness_HaltOnlyByTakenSubleq :
    ((after (step (demo [0, 0, 0xFFFFFF]))).map fun t => t.run) = some .halted := by decide
theorem witness_RunningMachineIsNeverStuck : (demo []).run = .running := rfl
/-- Another memory, in canonical form, that agrees on the cells read: cell 100 differs. The cycle writes cell 4. -/
theorem witness_CycleDependsOnlyOnCellsRead :
    (after (engineCycle (demo [3, 4, 9, 7, 5]))).isSome = true ∧
      Memory.wf Config.reference (demo [3, 4, 9, 7, 5]).mem = true ∧
      Memory.wf Config.reference ((demo [3, 4, 9, 7, 5]).mem ++ [(100, 1)]) = true ∧
      Access.write 4 (-2) ∈ cycleAccesses (demo [3, 4, 9, 7, 5]) ∧ ¬ Config.reference.tableBase ≤ 4 ∧
      ∀ x : Nat, Access.read x ∈ cycleAccesses (demo [3, 4, 9, 7, 5]) →
        Memory.read Config.reference ((demo [3, 4, 9, 7, 5]).mem ++ [(100, 1)]) x = (demo [3, 4, 9, 7, 5]).cell x := by
  refine ⟨by decide, by decide, by decide, by decide, by decide, fun x hx => ?_⟩
  rw [test_port_order] at hx
  simp only [List.mem_cons, Access.read.injEq, reduceCtorEq, List.not_mem_nil, or_false] at hx
  obtain rfl | rfl | rfl | rfl | rfl := hx <;> decide
/-- A protected cell that the cycle writes in vain, and the clauses of a bad `pc` and of a bad operand at their
boundaries. -/
theorem witness_CycleDependsOnlyOnCellsRead_protected :
    (after (engineCycle (demo [0xFFFFFE, 0xFFFF00, 0]))).isSome = true ∧
      Access.write 0xFFFF00 0 ∈ cycleAccesses (demo [0xFFFFFE, 0xFFFF00, 0]) ∧
      Config.reference.writeProtect = true ∧ Config.reference.tableBase ≤ 0xFFFF00 := by decide
theorem witness_CycleAccessesStayInsideMemory_pc :
    engineNext { demo [] with pc := 16777214 } ∧ ({ demo [] with pc := 16777214 } : State).term = false ∧
      (2 : Int) ^ 24 ≤ 16777214 + 2 ∧ engineNext { demo [] with pc := 16777216 } :=
  ⟨⟨rfl, rfl⟩, rfl, by decide, ⟨rfl, rfl⟩⟩
theorem witness_CycleAccessesStayInsideMemory_operands :
    engineNext (demo [5, 16777216, 0]) ∧ (2 : Int) ^ 24 ≤ (demo [5, 16777216, 0]).cell 1 ∧
      engineNext (demo [16777215, 16777214, -1]) ∧ (demo [16777215, 16777214, -1]).cell 0 < 2 ^ 24 ∧
      Access.write 16777214 16777215 ∈ cycleAccesses (demo [16777215, 16777214, -1]) :=
  ⟨⟨rfl, rfl⟩, by decide, ⟨rfl, rfl⟩, by decide, by decide⟩
theorem witness_CycleAccessesStayInsideMemory_performs : performs (demo [3, 4, 9, 7, 5]) (.subleq 3 4 9) := performs_subleq
theorem witness_CycleIgnoresCounterAndOutput : (after (engineCycle (demo [3, 0xFFFFFF, 0, 321]))).isSome = true := by decide
/-- Also the witness of WrittenCellsStayInRange: the step changes cell 4. -/
theorem witness_StepKeepsLegalStates :
    (demo [3, 4, 9, 7, 5]).Inv ∧ ((after (step (demo [3, 4, 9, 7, 5]))).map fun t => t.cell 4) = some (-2) ∧
      (demo [3, 4, 9, 7, 5]).cell 4 = 5 := ⟨inv_subleq, by decide, by decide⟩
theorem witness_ProtectedCellsNeverChange :
    (demo [0xFFFF05, 0xFFFF01, 9]).cfg.writeProtect = true ∧ (demo [0xFFFF05, 0xFFFF01, 9]).cfg.tableBase ≤ 0xFFFF01 ∧
      (after (step (demo [0xFFFF05, 0xFFFF01, 9]))).isSome = true := by decide
/-- An IN on an empty buffer makes 0xFFFFFF at cell 9; the value 0xFFFFFE stands in cell 4 before and after. -/
theorem witness_SentinelsCannotBeComputed :
    (demo [0xFFFFFF, 9, 0]).Inv ∧ ((after (step (demo [0xFFFFFF, 9, 0]))).map fun t => t.cell 9) = some 0xFFFFFF ∧
      ((after (step (demo [0xFFFFFF, 9, 0, 0, 0xFFFFFE]))).map fun t => t.cell 4) = some 0xFFFFFE :=
  ⟨inv_inp, by decide, by decide⟩
theorem witness_OutputGrowsOnlyByOut : (after (step (demo [3, 0xFFFFFF, 0, 321]))).isSome = true := by decide
theorem witness_AddressClassesDecideOutcome :
    classify Config.reference 0xFFFF00 = .ro ∧ Config.reference.writeProtect = true ∧
      classify Config.reference 0xFFFEFF = .rw ∧ Memory.wf Config.reference [] = true ∧
      classify { Config.reference with writeProtect := false } 0xFFFFFF = .ro := by decide
theorem witness_CanonicalMemoriesThatReadAlikeAreEqual :
    Memory.wf Config.reference [(3, 7)] = true ∧
      ∀ x : Nat, Memory.read Config.reference [(3, 7)] x = Memory.read Config.reference [(3, 7)] x :=
  ⟨by decide, fun _ => rfl⟩
theorem witness_PushFollowsItsPseudocode :
    (demo []).term = false ∧ (demo []).cnt + 1 ≤ (demo []).cfg.intThreshold ∧ (pushAll [3, 3, 3] (demo [])).term = false ∧
      (pushAll [3, 3, 3] (demo [])).cfg.intThreshold < (pushAll [3, 3, 3] (demo [])).cnt + 1 ∧
      (pushAll [3, 3, 3, 3] (demo [])).term = true := by decide
theorem witness_PushDiscardedWhenTerminating : (pushAll [3, 3, 3, 3] (demo [])).term = true := by decide
theorem witness_PopReturnsByteAtTail :
    (push 0x41 (demo [])).head ≠ (push 0x41 (demo [])).tail ∧ (push 0x41 (demo [])).buf[(push 0x41 (demo [])).tail]? = some 0x41 ∧
      (demo []).head = (demo []).tail := by decide
theorem witness_CaptureStepLeavesEngineState :
    ({ demo [] with turns := ⟨[.capture 3], 0⟩ } : State).run = .running ∧
      nextTurn { demo [] with turns := ⟨[.capture 3], 0⟩ } = .capture 3 := by decide
theorem witness_EngineLeavesCaptureState :
    engineNext (push 3 (demo [0xFFFFFE, 9, 0])) ∧ (after (step (push 3 (demo [0xFFFFFE, 9, 0])))).isSome = true :=
  ⟨⟨rfl, rfl⟩, by decide⟩
theorem witness_TerminateIsNeverCleared :
    (pushAll [3, 3, 3, 3] (demo [])).term = true ∧ (after (step (pushAll [3, 3, 3, 3] (demo [])))).isSome = true := by decide
/-- Seven bytes unread, the most that `KBUF_CAP` = 8 holds. -/
theorem witness_RingBufferIsFifo :
    (demo [3, 4, 9, 7, 5]).Inv ∧
      [QueueOp.push 1, .push 2, .push 4, .push 5, .push 6, .push 7, .push 8, .pop].all QueueOp.ordinary = true ∧
      runFifo 7 [.push 1, .push 2, .push 4, .push 5, .push 6, .push 7, .push 8, .pop] (visible (demo [3, 4, 9, 7, 5])) =
        some ([some 1], [2, 4, 5, 6, 7, 8]) := ⟨inv_subleq, by decide, by decide⟩
/-- Also the witness of InterruptDiscardsPendingInput below the threshold. -/
theorem witness_OverflowKeepsLastModuloCapacity :
    (demo [3, 4, 9, 7, 5]).Inv ∧ (demo [3, 4, 9, 7, 5]).term = false ∧
      (demo [3, 4, 9, 7, 5]).head = (demo [3, 4, 9, 7, 5]).tail ∧ (∀ b ∈ [(0x30 : Byte), 0x31], b ≠ 3) ∧
      (demo [3, 4, 9, 7, 5]).cnt < (demo [3, 4, 9, 7, 5]).cfg.intThreshold :=
  ⟨inv_subleq, rfl, rfl, by decide, by decide⟩
/-- The count at the threshold. -/
theorem witness_InterruptDiscardsPendingInput_threshold :
    ({ demo [3, 4, 9, 7, 5] with cnt := 3 } : State).Inv ∧
      ({ demo [3, 4, 9, 7, 5] with cnt := 3 } : State).cfg.intThreshold ≤ 3 := by
  refine ⟨?_, by decide⟩
  have h := inv_subleq
  exact { h with cnt_le := by decide, term_iff := by decide }
/-- One store that lands and one that is discarded. -/
theorem witness_InterruptFlagConsumedOnce :
    (demo [3, 4, 9, 7, 5]).Inv ∧ (demo [3, 4, 9, 7, 5]).cnt < (demo [3, 4, 9, 7, 5]).cfg.intThreshold ∧
      (Instr.inp 9 0).wellFormed = true ∧ (Instr.irq 0xFFFF10 0).wellFormed = true := ⟨inv_subleq, by decide, by decide, by decide⟩
/-- The second of two moves is reached, with the machine running. -/
theorem witness_EveryInterleavingIsARun :
    1 < [Turn.capture 0x41, .engine].length ∧
      ((after (runFor 1 { demo [3, 4, 9, 7, 5] with turns := ⟨[.capture 0x41, .engine], 0⟩ })).map fun t => t.run) =
        some .running := by decide
/-- Reset of a machine that has halted, with a turn still to come. -/
theorem witness_HostResetRestoresResetValues :
    (match hostReset { demo [1, 2, 3] with run := .halted, pc := 9 } [0, 0, 16777215] with
      | .ok t => decide (t.run = .running ∧ t.pc = 0 ∧ t.turns = ⟨[.engine], 0⟩)
      | .error _ => false) = true := by decide
/-- Two pushes come before the engine's turn. -/
theorem witness_EngineReachesItsNextTurn :
    (let s : State := { demo [3, 4, 9, 7, 5] with turns := ⟨[.capture 0x41, .capture 3, .engine], 0⟩ };
      decide (s.run = .running) && decide ((upcoming 3 s.turns)[2]? = some .engine)) = true := by decide
/-- P8: four interrupt bytes with an engine cycle between two of them. -/
theorem witness_ConsecutiveInterruptsTerminate :
    (let s : State := { demo [] with turns := ⟨[.capture 3, .capture 3, .engine, .capture 3, .capture 3], 0⟩ };
      (after (runFor 5 s)).isSome && onlyInterruptsIn 5 s && decide (s.cfg.intThreshold < interruptsIn 5 s)) = true := by decide
/-- Two states whose buffers differ in every slot, none of them visible. -/
theorem witness_HiddenSlotsCannotBeObserved :
    (demo [0xFFFFFF, 9, 0]).Inv ∧ ({ demo [0xFFFFFF, 9, 0] with buf := List.replicate 8 0x55 } : State).Inv ∧
      sameButHiddenSlots (demo [0xFFFFFF, 9, 0]) { demo [0xFFFFFF, 9, 0] with buf := List.replicate 8 0x55 } ∧
      (after (step (demo [0xFFFFFF, 9, 0]))).isSome = true := by
  have h := inv_inp
  exact ⟨h, { h with buf_len := rfl }, ⟨rfl, by decide⟩, by decide⟩

end Sys2Proof.Machine.Tests
end

section
/-! The legal states (Safety.lean, `State.Inv`): the state at release of reset is legal, each operation of the
machine keeps legality under the conditions its caller meets, and so does every step. -/

namespace Sys2Proof.Machine

variable {s t : State} {cfg : Config} {m : Memory} {image : List Int}

/-! ## What the cells of a legal state hold -/

/-- An unlisted address reads as 0 to 255, which every cell width holds (R31). -/
theorem unlistedCell_range (cfg : Config) (x : Nat) : 0 ≤ unlistedCell cfg x ∧ unlistedCell cfg x ≤ 255 := by
  have hlen : tableLen = 256 := rfl
  unfold unlistedCell
  split <;> omega

/-- A read answers a listed value or what the address reads as unlisted. -/
theorem read_listed_or_unlisted (cfg : Config) (m : Memory) (x : Nat) :
    (x, Memory.read cfg m x) ∈ m ∨ Memory.read cfg m x = unlistedCell cfg x := by
  induction m with
  | nil => exact .inr rfl
  | cons e rest ih =>
    obtain ⟨k, w⟩ := e
    rw [Memory.read]
    split
    · rename_i hk
      exact .inl (hk ▸ List.mem_cons_self)
    · exact ih.imp_left (List.mem_cons_of_mem _)

/-- Every cell of a legal state, listed or not, fits its width (R12). -/
theorem State.Inv.cell_fits (h : s.Inv) (x : Nat) : fitsCell s.cfg.cellW (s.cell x) := by
  obtain ⟨-, -, -, hw⟩ := h.cfg_ok
  rcases read_listed_or_unlisted s.cfg s.mem x with hl | hu
  · exact h.cells_fit _ hl
  · change s.cell x = _ at hu
    obtain ⟨hl, hh⟩ := unlistedCell_range s.cfg x
    exact fits_of_25_bits hw (by omega) (by omega)

/-- A cursor moved on stays below the capacity (R19). -/
theorem nextSlot_lt (h : cfg.wf) (i : Nat) : nextSlot cfg i < cfg.kbufCap := by
  obtain ⟨-, -, hcap, -⟩ := h
  exact Nat.mod_lt _ (by omega)

/-! ## Boot -/

/-- The state at release of reset is legal when the boot memory is (R135). -/
theorem atRelease_inv (hcfg : cfg.wf) (hm : Memory.wf cfg m = true) (hfit : ∀ e ∈ m, fitsCell cfg.cellW e.2) :
    (State.atRelease cfg m).Inv := by
  obtain ⟨-, -, hcap, hw⟩ := id hcfg
  have hlt : 0 < cfg.kbufCap := by omega
  exact {
    cfg_ok := hcfg
    mem_ok := hm
    cells_fit := hfit
    pc_ok := .inl (fits_of_25_bits hw (by simp) (by simp))
    buf_len := List.length_replicate
    head_lt := hlt
    tail_lt := hlt
    cnt_le := Nat.zero_le _
    term_iff := by simp
    term_empty := by simp
    cause_iff := by simp
    term_run := by simp }

/-- An image's memory lists only values of the image. -/
theorem value_mem_of_mem_imageMemory {k : Nat} {e : Nat × Int} (h : e ∈ imageMemory cfg k image) :
    e.2 ∈ image := by
  induction image generalizing k with
  | nil => cases h
  | cons v vs ih =>
    rcases List.mem_append.1 h with he | he
    · unfold memoryEntry at he
      split at he
      · cases he
      · rw [List.mem_singleton.1 he]
        exact List.mem_cons_self
    · exact List.mem_cons_of_mem _ (ih he)

/-- A boot that is not refused meets the premises of R3, R142 and D17, and is the release with the image's memory. -/
theorem boot_ok (h : boot cfg image = .ok s) :
    cfg.wf ∧ image.length ≤ cfg.tableBase ∧ (∀ v ∈ image, fitsCell cfg.cellW v) ∧
      s = State.atRelease cfg (imageMemory cfg 0 image) := by
  unfold boot at h
  split at h
  · cases h
  · rename_i hcfg
    split at h
    · cases h
    · rename_i hlen
      split at h
      · cases h
      · rename_i hfit
        injection h with h
        exact ⟨not_not.1 hcfg, not_lt.1 hlen, not_not.1 hfit, h.symm⟩

/-! ## The operations keep legality -/

theorem dropTurn_inv (h : s.Inv) : (dropTurn s).Inv := { h with }

theorem emit_inv (h : s.Inv) (byte : Byte) : (emit byte s).Inv := { h with }

/-- `irq` may be cleared as long as `term` is not set: the push that set `term` left it set (R103). -/
theorem clearIrq_inv (h : s.Inv) (ht : s.term = false) : (clearIrq s).Inv :=
  { h with term_empty := fun hterm => by simp [ht] at hterm }

/-- The sequencer's `pc + 3` after a fetch inside memory is at most 2^24 (R85). -/
theorem advance_inv (h : s.Inv) (h0 : 0 ≤ s.pc) (h1 : s.pc ≤ 16777213) : (advance s).Inv := by
  obtain ⟨-, -, -, hw⟩ := h.cfg_ok
  have hpc : fitsCell s.cfg.cellW (s.pc + 3) ∨ s.pc + 3 = (memSize : Int) := by
    rcases eq_or_lt_of_le h1 with htop | hlow
    · exact .inr (by rw [htop]; rfl)
    · exact .inl (fits_of_25_bits hw (by omega) (by omega))
  exact { h with pc_ok := hpc }

theorem jump_inv (h : s.Inv) {c : Int} (hc : fitsCell s.cfg.cellW c) : (jump c s).Inv :=
  { h with pc_ok := .inl hc }

/-- A machine that runs has recorded no fault (R15). -/
theorem State.Inv.cause_of_running (h : s.Inv) (hr : s.run = .running) : s.cause = .none := by
  by_contra hc
  have := h.cause_iff.1 hc
  simp [hr] at this

theorem halt_inv (h : s.Inv) (hr : s.run = .running) (ht : s.term = false) : (halt s).Inv :=
  { h with
    cause_iff := by simp [h.cause_of_running hr]
    term_run := by simp [ht] }

theorem raiseFault_inv (h : s.Inv) (ht : s.term = false) {cause : Cause} (hc : cause ≠ .none) :
    (raiseFault cause s).Inv :=
  { h with
    cause_iff := by simp [hc]
    term_run := by simp [ht] }

theorem terminate_inv (h : s.Inv) (hr : s.run = .running) (ht : s.term = true) : (terminate s).Inv :=
  { h with
    cause_iff := by simp [h.cause_of_running hr]
    term_run := by simp [ht] }

theorem storeCell_inv (h : s.Inv) {addr : Nat} (ha : addr < memSize) {v : Int} (hv : fitsCell s.cfg.cellW v) :
    (storeCell addr v s).Inv := by
  have hfit : ∀ e ∈ (storeCell addr v s).mem, fitsCell s.cfg.cellW e.2 := fun e he => by
    rcases mem_of_mem_storeCell he with rfl | he
    · exact hv
    · exact h.cells_fit e he
  have hwf := storeCell_wf (v := v) h.mem_ok ha
  rw [storeCell_eq] at hfit hwf ⊢
  exact { h with mem_ok := hwf, cells_fit := hfit }

/-- `pop` moves `tail` only where the buffer is not empty, so not once `term` is set (R106). -/
theorem pop_inv (h : s.Inv) : (pop s).2.Inv := by
  obtain ⟨-, e⟩ | ⟨hne, e⟩ := pop_cases s
  · rw [e]
    exact h
  · rw [e]
    exact { h with
      tail_lt := nextSlot_lt h.cfg_ok _
      term_empty := fun ht => by
        obtain ⟨hh, htl, -⟩ := h.term_empty ht
        exact absurd (hh.trans htl.symm) hne }

/-- A push to a running machine: the count moves with `term`, and the push that sets `term` leaves the buffer empty
and `irq` set (R101 to R106). -/
theorem push_inv (h : s.Inv) (hr : s.run = .running) (byte : Byte) : (push byte s).Inv := by
  have hcnt : s.term = false → s.cnt ≤ s.cfg.intThreshold := fun ht => by
    have hle := h.term_iff.not.1 (by simp [ht])
    omega
  have hlen : ∀ i, (s.buf.set i byte).length = s.cfg.kbufCap := fun i => List.length_set.trans h.buf_len
  have hpos : 0 < s.cfg.kbufCap := Nat.zero_lt_of_lt h.head_lt
  obtain ⟨-, e⟩ | ⟨ht, -, hover, e⟩ | ⟨ht, -, hunder, e⟩ | ⟨ht, -, e⟩ := push_cases byte s
  all_goals rw [e]
  · exact h
  · exact { h with
      head_lt := hpos
      tail_lt := hpos
      cnt_le := Nat.succ_le_succ (hcnt ht)
      term_iff := iff_of_true rfl hover
      term_empty := fun _ => ⟨rfl, rfl, rfl⟩
      term_run := by simp [hr] }
  · exact { h with
      buf_len := hlen 0
      head_lt := nextSlot_lt h.cfg_ok 0
      tail_lt := hpos
      cnt_le := Nat.succ_le_succ (hcnt ht)
      term_iff := iff_of_false (by simp [ht]) hunder
      term_empty := fun hterm => by simp [ht] at hterm }
  · exact { h with
      buf_len := hlen s.head
      head_lt := nextSlot_lt h.cfg_ok s.head
      cnt_le := Nat.zero_le _
      term_iff := iff_of_false (by simp [ht]) (Nat.not_lt_zero _)
      term_empty := fun hterm => by simp [ht] at hterm }

/-- The branch multiplexer halts, jumps to a cell's value or goes on (R83 to R85). -/
theorem branch_inv (h : s.Inv) (hr : s.run = .running) (ht : s.term = false) (h0 : 0 ≤ s.pc)
    (h1 : s.pc ≤ 16777213) (r : Int) {c : Int} (hc : fitsCell s.cfg.cellW c) : (branch r c s).Inv := by
  obtain ⟨-, -, e⟩ | ⟨-, -, e⟩ | ⟨-, e⟩ := branch_cases r c s
  all_goals rw [e]
  · exact halt_inv h hr ht
  · exact jump_inv h hc
  · exact advance_inv h h0 h1

/-! ## The values an instruction stores -/

theorem fitsCell_subWrapped (h : cfg.wf) (x y : Int) : fitsCell cfg.cellW (subWrapped x y) := by
  obtain ⟨-, -, -, hw⟩ := h
  obtain ⟨hl, hu⟩ := subWrapped_range x y
  exact fits_of_25_bits hw (by omega) (by omega)

theorem fitsCell_flagCell (h : cfg.wf) (flag : Bool) : fitsCell cfg.cellW (flagCell flag) := by
  obtain ⟨-, -, -, hw⟩ := h
  cases flag <;> exact fits_of_25_bits hw (by decide) (by decide)

theorem fitsCell_inputCell (h : cfg.wf) (r : Option Byte) : fitsCell cfg.cellW (inputCell r) := by
  obtain ⟨-, -, -, hw⟩ := h
  obtain ⟨-, e⟩ | ⟨byte, -, e⟩ := inputCell_cases r
  all_goals rw [e]
  · exact fits_of_25_bits hw (by decide) (by decide)
  · obtain ⟨hl, hu⟩ := zext8_range byte
    exact fits_of_25_bits hw (by omega) (by omega)

/-! ## Every step keeps legality -/

/-- The branch target of a decoded SUBLEQ is the triple's whole third cell (R50). -/
theorem decode_subleq_target {triple : Triple} {a b : Nat} {c : Int} (h : decode triple = .ok (.subleq a b c)) :
    c = triple.c := by
  obtain ⟨-, e⟩ | ⟨-, -, e⟩ | ⟨-, -, e⟩ | ⟨-, -, -, e⟩ | ⟨-, -, -, -, e⟩ := decode_cases triple
  all_goals rw [e] at h
  case inr.inr.inr.inr =>
    generalize selectForm triple.a.toNat triple.b.toNat = form at h
    cases form <;> cases h
    rfl
  all_goals cases h

/-- An instruction decoded at a `pc` inside memory, `term` not set, leads to a legal state. -/
theorem exec_inv (h : s.Inv) (hr : s.run = .running) (ht : s.term = false) (h0 : 0 ≤ s.pc)
    (h1 : s.pc ≤ 16777213) {i : Instr} (hd : decode (fetch s) = .ok i) (he : exec i s = .next t) : t.Inv := by
  obtain ⟨a, c, -, -, rfl⟩ | ⟨b, c, -, hb, rfl⟩ | ⟨b, c, -, hb, rfl⟩ | ⟨a, b, c, rfl, -, hb, rfl⟩ := exec_next he
  · exact advance_inv (emit_inv h _) h0 h1
  · have hpop : (pop (clearIrq s)).2.Inv := pop_inv (clearIrq_inv h ht)
    have hstore := storeCell_inv hpop hb (fitsCell_inputCell hpop.cfg_ok (pop (clearIrq s)).1)
    exact advance_inv hstore (by simpa [pop_state] using h0) (by simpa [pop_state] using h1)
  · have hstore := storeCell_inv h hb (fitsCell_flagCell h.cfg_ok s.irq)
    exact advance_inv (clearIrq_inv hstore (by simpa using ht)) (by simpa using h0) (by simpa using h1)
  · have hstore := storeCell_inv h hb (fitsCell_subWrapped h.cfg_ok (s.cell b) (s.cell a))
    have hc : fitsCell s.cfg.cellW c := decode_subleq_target hd ▸ h.cell_fits _
    exact branch_inv hstore (by simpa using hr) (by simpa using ht) (by simpa using h0) (by simpa using h1) _
      (by simpa using hc)

theorem engineCycle_inv (h : s.Inv) (hr : s.run = .running) (he : engineCycle s = .next t) : t.Inv := by
  obtain ⟨ht, rfl⟩ | ⟨ht, cause, hc, rfl⟩ | ⟨ht, h0, h1, i, hd, -, hexec⟩ := engineCycle_next he
  · exact terminate_inv h hr ht
  · exact raiseFault_inv h ht hc
  · exact exec_inv h hr ht h0 h1 hd hexec

/-- Settles O36: each of the two agents keeps the invariant. -/
theorem stepKeepsLegalStates : Obligations.StepKeepsLegalStates := by
  intro s t h hstep
  obtain ⟨hr, ⟨byte, -, rfl⟩ | ⟨-, hcycle⟩⟩ := step_next hstep
  · exact push_inv (dropTurn_inv h) hr byte
  · exact engineCycle_inv (dropTurn_inv h) hr hcycle

/-- Settles O10: the image's memory is canonical and lists only values of the image, which the launch has checked. -/
theorem bootedStateIsLegal : Obligations.BootedStateIsLegal := by
  intro cfg image s h
  obtain ⟨hcfg, hlen, hfit, rfl⟩ := boot_ok h
  obtain ⟨-, htable, -, -⟩ := id hcfg
  exact atRelease_inv hcfg (wfFrom_imageMemory cfg 0 image (by omega))
    fun e he => hfit _ (value_mem_of_mem_imageMemory he)

/-- Settles O11: the reset state is a boot that is not refused. -/
theorem resetStateIsLegal : Obligations.ResetStateIsLegal := by
  have hboot : boot Config.reference [] = .ok State.reset := by decide
  exact ⟨bootedStateIsLegal _ _ _ hboot, hboot⟩

end Sys2Proof.Machine
end

section
/-! The engine's next turn (R155): every schedule lists it after finitely many pushes, and a running machine comes to
it with the engine's state as it was. -/

namespace Sys2Proof.Machine

variable {s t : State} {n : Nat}

/-- What the outside world chooses before an engine cycle ends with the engine's turn (R155, entry 27). -/
theorem engine_turn_freeTurns (asked : Nat) :
    (freeTurns asked)[(Config.freeInput asked).length]? = some .engine := by
  simp [freeTurns]

/-- Every schedule gives the engine a coming turn: past the listed turns, the one the outside world owes it. -/
theorem exists_engine_turn (turns : Schedule) : ∃ k : Nat, (upcoming (k + 1) turns)[k]? = some .engine := by
  obtain ⟨listed, asked⟩ := turns
  induction listed with
  | nil =>
    refine ⟨(Config.freeInput asked).length, ?_⟩
    have hlen : (freeTurns asked).length = (Config.freeInput asked).length + 1 := by simp [freeTurns]
    rw [← upcoming_settle, settle_free, ← hlen, upcoming_listed]
    exact engine_turn_freeTurns asked
  | cons turn rest ih =>
    obtain ⟨k, hk⟩ := ih
    exact ⟨k + 1, by simpa using hk⟩

theorem runFor_succ_of_step (h : step s = .next t) : runFor (n + 1) s = runFor n t := by
  simp [runFor, h]

/-- Up to the engine's turn a running machine makes only pushes, none of which touches the engine's state (R4). -/
theorem runFor_reaches_engine (k : Nat) (s : State) (hr : s.run = .running)
    (hk : (upcoming (k + 1) s.turns)[k]? = some .engine) :
    ∃ n t, n ≤ k ∧ runFor n s = .next t ∧ engineNext t ∧
      t.mem = s.mem ∧ t.pc = s.pc ∧ t.run = s.run ∧ t.cause = s.cause ∧ t.out = s.out := by
  induction k generalizing s with
  | zero =>
    have hn : nextTurn s = .engine := by simpa [nextTurn] using hk
    exact ⟨0, s, le_rfl, rfl, ⟨hr, hn⟩, rfl, rfl, rfl, rfl, rfl⟩
  | succ k ih =>
    cases hn : nextTurn s with
    | engine => exact ⟨0, s, Nat.zero_le _, rfl, ⟨hr, hn⟩, rfl, rfl, rfl, rfl, rfl⟩
    | capture byte =>
      obtain ⟨n, t, hle, hrun, hnext, hframe⟩ := ih (push byte (dropTurn s)) (by simpa using hr) (by simpa using hk)
      exact ⟨n + 1, t, Nat.succ_le_succ hle, (runFor_succ_of_step (step_capture hr hn)).trans hrun, hnext,
        by simpa using hframe⟩

/-- Settles O57: by induction on the listed turns, then on the number of turns before the engine's. -/
theorem engineReachesItsNextTurn : Obligations.EngineReachesItsNextTurn :=
  ⟨exists_engine_turn, fun s k => runFor_reaches_engine k s⟩

end Sys2Proof.Machine
end

section
/-! What a step leaves unchanged: the registers and the cells after an instruction, after an engine cycle that performs
none, and after a push. -/

namespace Sys2Proof.Machine

variable {s t : State} {i j : Instr} {x : Nat}

/-! ## The instructions -/

@[simp] theorem pop_cfg (s : State) : (pop s).2.cfg = s.cfg := by rw [pop_state]
@[simp] theorem pop_mem (s : State) : (pop s).2.mem = s.mem := by rw [pop_state]
@[simp] theorem pop_pc (s : State) : (pop s).2.pc = s.pc := by rw [pop_state]
@[simp] theorem pop_run (s : State) : (pop s).2.run = s.run := by rw [pop_state]
@[simp] theorem pop_cause (s : State) : (pop s).2.cause = s.cause := by rw [pop_state]
@[simp] theorem pop_irq (s : State) : (pop s).2.irq = s.irq := by rw [pop_state]
@[simp] theorem pop_term (s : State) : (pop s).2.term = s.term := by rw [pop_state]
@[simp] theorem pop_cnt (s : State) : (pop s).2.cnt = s.cnt := by rw [pop_state]
@[simp] theorem pop_buf (s : State) : (pop s).2.buf = s.buf := by rw [pop_state]
@[simp] theorem pop_head (s : State) : (pop s).2.head = s.head := by rw [pop_state]
@[simp] theorem pop_out (s : State) : (pop s).2.out = s.out := by rw [pop_state]
@[simp] theorem pop_turns (s : State) : (pop s).2.turns = s.turns := by rw [pop_state]
@[simp] theorem pop_cell (s : State) (x : Nat) : (pop s).2.cell x = s.cell x := by simp [State.cell]

/-- IN's `pop` does not see that `irq` was cleared before it (R92). -/
@[simp] theorem pop_clearIrq (s : State) : pop (clearIrq s) = ((pop s).1, clearIrq (pop s).2) := by
  obtain ⟨h, e⟩ | ⟨h, e⟩ := pop_cases s
  · rw [e]
    exact if_pos h
  · rw [e]
    exact if_neg h

/-- The branch multiplexer leaves `run` alone or halts (R83 to R85). -/
theorem branch_run (r c : Int) (s : State) : (branch r c s).run = s.run ∨ (branch r c s).run = .halted := by
  obtain ⟨-, -, e⟩ | ⟨-, -, e⟩ | ⟨-, e⟩ := branch_cases r c s
  · exact .inr (by rw [e, halt_run])
  · exact .inl (by rw [e, jump_run])
  · exact .inl (by rw [e, advance_run])

@[simp] theorem branch_cfg (r c : Int) (s : State) : (branch r c s).cfg = s.cfg := by rw [branch_eq]
@[simp] theorem branch_mem (r c : Int) (s : State) : (branch r c s).mem = s.mem := by rw [branch_eq]
@[simp] theorem branch_cause (r c : Int) (s : State) : (branch r c s).cause = s.cause := by rw [branch_eq]
@[simp] theorem branch_irq (r c : Int) (s : State) : (branch r c s).irq = s.irq := by rw [branch_eq]
@[simp] theorem branch_term (r c : Int) (s : State) : (branch r c s).term = s.term := by rw [branch_eq]
@[simp] theorem branch_cnt (r c : Int) (s : State) : (branch r c s).cnt = s.cnt := by rw [branch_eq]
@[simp] theorem branch_buf (r c : Int) (s : State) : (branch r c s).buf = s.buf := by rw [branch_eq]
@[simp] theorem branch_head (r c : Int) (s : State) : (branch r c s).head = s.head := by rw [branch_eq]
@[simp] theorem branch_tail (r c : Int) (s : State) : (branch r c s).tail = s.tail := by rw [branch_eq]
@[simp] theorem branch_out (r c : Int) (s : State) : (branch r c s).out = s.out := by rw [branch_eq]
@[simp] theorem branch_turns (r c : Int) (s : State) : (branch r c s).turns = s.turns := by rw [branch_eq]
@[simp] theorem branch_cell (r c : Int) (s : State) (x : Nat) : (branch r c s).cell x = s.cell x := by
  simp [State.cell]

/-- Settles O20: the frame of each form, read off its meaning. -/
theorem instructionRegisterFrame : Obligations.InstructionRegisterFrame := by
  intro i s t h
  obtain ⟨a, c, rfl, -, rfl⟩ | ⟨b, c, rfl, -, rfl⟩ | ⟨b, c, rfl, -, rfl⟩ | ⟨a, b, c, rfl, -, -, rfl⟩ := exec_next h
  · simp [Instr.form]
  · simp [Instr.form]
  · simp [Instr.form]
  · simpa [Instr.form] using
      branch_run (subWrapped (s.cell b) (s.cell a)) c (storeCell b (subWrapped (s.cell b) (s.cell a)) s)

/-- IN moves `tail` as its `pop` does; no other form moves it (R107). -/
theorem exec_tail (h : exec i s = .next t) : t.tail = if i.form = .inp then (pop s).2.tail else s.tail := by
  obtain ⟨a, c, rfl, -, rfl⟩ | ⟨b, c, rfl, -, rfl⟩ | ⟨b, c, rfl, -, rfl⟩ | ⟨a, b, c, rfl, -, -, rfl⟩ := exec_next h
  · simp [Instr.form]
  · simp [Instr.form]
  · simp [Instr.form]
  · simp [Instr.form]

theorem form_eq_out : i.form = .out ↔ ∃ a c, i = .out a c := by
  cases i <;> simp [Instr.form]

/-- Only OUT emits (R20). -/
theorem exec_out_unchanged (h : exec i s = .next t) (hi : i.form ≠ .out) : t.out = s.out := by
  obtain ⟨-, -, -, -, -, -, -, -, -, hout, -⟩ := instructionRegisterFrame i s t h
  exact hout.resolve_right fun ⟨hform, _⟩ => hi hform

/-- OUT emits the low byte of its cell (R90). -/
theorem exec_out_emits {a : Nat} {c : Int} (h : exec (.out a c) s = .next t) :
    t.out = s.out ++ [lo8 (s.cell a)] := by
  simp only [exec, execOut] at h
  obtain ⟨-, h⟩ := memRead_next h
  cases h
  rfl

/-- What a cell holds after a store, the protection looked up at that cell (R35). -/
theorem storeCell_cell_target {b : Nat} {v : Int} (h : Memory.wf s.cfg s.mem = true) :
    (storeCell b v s).cell x = if b = x ∧ writeDiscarded s.cfg x = false then v else s.cell x := by
  rw [storeCell_cell h]
  by_cases hx : b = x
  · simp [hx]
  · simp [hx, Ne.symm hx]

/-- What a cell holds after an instruction: the value the form presents, where the form stores and the store lands
(R35, R38). -/
theorem exec_cell (hm : Memory.wf s.cfg s.mem = true) (h : exec i s = .next t) (x : Nat) :
    t.cell x = if storeTarget i = some x ∧ writeDiscarded s.cfg x = false then storeValue i s else s.cell x := by
  obtain ⟨a, c, rfl, -, rfl⟩ | ⟨b, c, rfl, -, rfl⟩ | ⟨b, c, rfl, -, rfl⟩ | ⟨a, b, c, rfl, -, -, rfl⟩ := exec_next h
  · simp [storeTarget]
  · have hp : Memory.wf (pop (clearIrq s)).2.cfg (pop (clearIrq s)).2.mem = true := by simpa using hm
    rw [advance_cell, storeCell_cell_target hp]
    simp [storeTarget, storeValue]
  · rw [advance_cell, clearIrq_cell, storeCell_cell_target hm]
    simp [storeTarget, storeValue]
  · rw [branch_cell, storeCell_cell_target hm]
    simp [storeTarget, storeValue]

/-- Every form presents a value in [−2^23, 2^24 − 1] (R13). -/
theorem storeValue_range (i : Instr) (s : State) : -8388608 ≤ storeValue i s ∧ storeValue i s ≤ 16777215 := by
  cases i with
  | out a c => simp [storeValue]
  | inp b c =>
    change -8388608 ≤ inputCell (pop s).1 ∧ inputCell (pop s).1 ≤ 16777215
    obtain ⟨-, e⟩ | ⟨byte, -, e⟩ := inputCell_cases (pop s).1
    · omega
    · have := zext8_range byte
      omega
  | irq b c =>
    change -8388608 ≤ flagCell s.irq ∧ flagCell s.irq ≤ 16777215
    cases s.irq <;> decide
  | subleq a b c =>
    obtain ⟨hl, hu⟩ := subWrapped_range (s.cell b) (s.cell a)
    exact ⟨hl, hu.trans (by decide)⟩

/-! ## The steps -/

@[simp] theorem push_cell (byte : Byte) (s : State) (x : Nat) : (push byte s).cell x = s.cell x := by
  simp [State.cell]

/-- A step performs at most one instruction. -/
theorem performs_unique (hi : performs s i) (hj : performs s j) : i = j := by
  obtain ⟨-, hi⟩ := hi
  obtain ⟨-, hj⟩ := hj
  exact Except.ok.inj (hi.symm.trans hj)

/-- The ways a step gives a next state, by what is performed: an instruction, on the state without the turn taken; or
none, and then the step is a push, the end of a terminating run, or a fault. -/
theorem step_cases (h : step s = .next t) :
    (∃ i, performs s i ∧ exec i (dropTurn s) = .next t) ∨
    ((∀ i, ¬ performs s i) ∧
      ((∃ byte, nextTurn s = .capture byte ∧ t = push byte (dropTurn s)) ∨
        (nextTurn s = .engine ∧
          (t = terminate (dropTurn s) ∨ ∃ cause, cause ≠ .none ∧ t = raiseFault cause (dropTurn s))))) := by
  obtain ⟨hr, ⟨byte, hn, ht⟩ | ⟨hn, hcycle⟩⟩ := step_next h
  · exact .inr ⟨fun i ⟨⟨_, he⟩, _⟩ => by simp [hn] at he, .inl ⟨byte, hn, ht⟩⟩
  cases hi : issue (dropTurn s) with
  | ok i => exact .inl ⟨i, ⟨⟨hr, hn⟩, hi⟩, by simpa [engineCycle, hi] using hcycle⟩
  | error ended =>
    refine .inr ⟨fun i ⟨_, ho⟩ => by simp [hi] at ho, .inr ⟨hn, ?_⟩⟩
    obtain ⟨-, ht⟩ | ⟨-, cause, hc, ht⟩ | ⟨-, -, -, i, -, ho, -⟩ := engineCycle_next hcycle
    · exact .inl ht
    · exact .inr ⟨cause, hc, ht⟩
    · simp [hi] at ho

/-- Settles O38: a step changes only the cell an instruction stores to, and every form stores a value of that range. -/
theorem writtenCellsStayInRange : Obligations.WrittenCellsStayInRange := by
  intro s t x hinv h hne
  obtain ⟨i, -, he⟩ | ⟨-, ⟨byte, -, rfl⟩ | ⟨-, rfl | ⟨cause, -, rfl⟩⟩⟩ := step_cases h
  · have hcell := exec_cell (s := dropTurn s) hinv.mem_ok he x
    split at hcell
    · obtain ⟨hl, hu⟩ := storeValue_range i (dropTurn s)
      omega
    · exact absurd hcell hne
  · exact absurd (by simp) hne
  · exact absurd (by simp) hne
  · exact absurd (by simp) hne

/-- Settles O40: of the four forms OUT alone emits, and it emits the low byte of its cell. -/
theorem outputGrowsOnlyByOut : Obligations.OutputGrowsOnlyByOut := by
  intro s t h
  obtain ⟨i, hp, he⟩ | ⟨hnone, hend⟩ := step_cases h
  · by_cases hform : i.form = .out
    · obtain ⟨a, c, rfl⟩ := form_eq_out.1 hform
      exact .inr ⟨a, c, hp, lo8 (s.cell a), lo8_toNat _, by simpa using exec_out_emits he⟩
    · exact .inl ⟨by simpa using exec_out_unchanged he hform, fun a c hout => hform (performs_unique hp hout ▸ rfl)⟩
  · refine .inl ⟨?_, fun a c => hnone _⟩
    obtain ⟨byte, -, rfl⟩ | ⟨-, rfl | ⟨cause, -, rfl⟩⟩ := hend <;> simp

/-- Settles O47: an instruction keeps to its register frame, and a cycle that performs none writes `run` and `cause`. -/
theorem engineLeavesCaptureState : Obligations.EngineLeavesCaptureState := by
  intro s t ⟨_, hn⟩ h
  obtain ⟨i, -, he⟩ | ⟨-, ⟨byte, hc, -⟩ | ⟨-, rfl | ⟨cause, -, rfl⟩⟩⟩ := step_cases h
  · obtain ⟨-, -, hterm, hcnt, hbuf, hhead, -, -, hirq, -, -⟩ := instructionRegisterFrame i _ t he
    exact ⟨hcnt, hterm, hbuf, hhead, fun ht => by simpa [ht] using hirq⟩
  · simp [hn] at hc
  · simp
  · simp

/-- No `push` clears `term` (R102, R104). -/
theorem push_term (byte : Byte) (h : s.term = true) : (push byte s).term = true := by
  simp [push, h]

/-- Settles O48: an engine cycle does not write `term`, and a push only sets it. -/
theorem terminateIsNeverCleared : Obligations.TerminateIsNeverCleared := by
  intro s t h hterm
  obtain ⟨hr, ⟨byte, -, rfl⟩ | ⟨hn, -⟩⟩ := step_next h
  · exact push_term byte hterm
  · obtain ⟨-, ht, -⟩ := engineLeavesCaptureState s t ⟨hr, hn⟩ h
    exact ht.trans hterm

end Sys2Proof.Machine
end

section
/-! Memory's canonical form determines memory (entry 1): what the reads say fixes the first listed address, its value,
and the reads of the rest. -/

namespace Sys2Proof.Machine

variable {cfg : Config} {m m' : Memory} {lo k k' x : Nat} {v v' : Int}

@[simp] theorem read_head : Memory.read cfg ((k, v) :: m) k = v := if_pos rfl

/-- No address below the first listed one reads otherwise than unlisted. -/
theorem head_le_of_read_ne_unlisted (h : Memory.wfFrom cfg lo ((k, v) :: m) = true)
    (hx : Memory.read cfg ((k, v) :: m) x ≠ unlistedCell cfg x) : k ≤ x := by
  obtain ⟨-, hrest⟩ := wfFrom_cons.1 h
  exact not_lt.1 fun hlt => hx (read_below (lo := k) (wfFrom_cons.2 ⟨le_rfl, hrest⟩) hlt)

/-- The first listed address reads otherwise than unlisted. -/
theorem read_head_ne_unlisted (h : Memory.wfFrom cfg lo ((k, v) :: m) = true) :
    Memory.read cfg ((k, v) :: m) k ≠ unlistedCell cfg k := by
  obtain ⟨-, -, hv, -⟩ := wfFrom_cons.1 h
  simpa using hv

/-- Canonical memories that read alike start at the same address, the one that bounds all listed ones. -/
theorem head_le_head_of_read_eq (h : Memory.wfFrom cfg lo ((k, v) :: m) = true)
    (h' : Memory.wfFrom cfg lo ((k', v') :: m') = true)
    (hread : ∀ x, Memory.read cfg ((k, v) :: m) x = Memory.read cfg ((k', v') :: m') x) : k ≤ k' :=
  head_le_of_read_ne_unlisted h (hread k' ▸ read_head_ne_unlisted h')

/-- Past a common first entry, canonical memories that read alike still do. -/
theorem read_rest_eq (h : Memory.wfFrom cfg (k + 1) m = true) (h' : Memory.wfFrom cfg (k + 1) m' = true)
    (hread : ∀ x, Memory.read cfg ((k, v) :: m) x = Memory.read cfg ((k, v) :: m') x) (x : Nat) :
    Memory.read cfg m x = Memory.read cfg m' x := by
  by_cases hx : k = x
  · rw [read_below h (by omega), read_below h' (by omega)]
  · simpa [Memory.read, hx] using hread x

theorem eq_of_read_eq (h : Memory.wfFrom cfg lo m = true) (h' : Memory.wfFrom cfg lo m' = true)
    (hread : ∀ x, Memory.read cfg m x = Memory.read cfg m' x) : m = m' := by
  induction m generalizing lo m' with
  | nil =>
    cases m' with
    | nil => rfl
    | cons e' rest' => exact absurd (hread e'.1).symm (read_head_ne_unlisted h')
  | cons e rest ih =>
    cases m' with
    | nil => exact absurd (hread e.1) (read_head_ne_unlisted h)
    | cons e' rest' =>
      obtain ⟨k, v⟩ := e
      obtain ⟨k', v'⟩ := e'
      obtain rfl : k = k' :=
        le_antisymm (head_le_head_of_read_eq h h' hread) (head_le_head_of_read_eq h' h fun x => (hread x).symm)
      obtain rfl : v = v' := by simpa using hread k
      obtain ⟨-, -, -, hrest⟩ := wfFrom_cons.1 h
      obtain ⟨-, -, -, hrest'⟩ := wfFrom_cons.1 h'
      rw [ih hrest hrest' (read_rest_eq hrest hrest' hread)]

/-- Settles O43: by induction on the two lists of entries, which start at the same address. -/
theorem canonicalMemoriesThatReadAlikeAreEqual : Obligations.CanonicalMemoriesThatReadAlikeAreEqual :=
  fun _ _ _ h h' hread => eq_of_read_eq h h' hread

end Sys2Proof.Machine
end

section
/-! Reset (R135): the register values at its release, from a launch and from a machine in any state. -/

namespace Sys2Proof.Machine

variable {s t : State} {image : List Int}

/-- A reset that is not refused is the boot with the machine's own parameters, its schedule kept (entry 28). -/
theorem hostReset_ok (h : hostReset s image = .ok t) :
    ∃ u, boot s.cfg image = .ok u ∧ t = { u with turns := s.turns } := by
  unfold hostReset at h
  cases hb : boot s.cfg image with
  | ok u =>
    rw [hb] at h
    injection h with h
    exact ⟨u, rfl, h.symm⟩
  | error refusal =>
    rw [hb] at h
    cases h

/-- An empty buffer shows no byte (R19). -/
theorem visible_of_head_eq_tail (h : s.head = s.tail) : visible s = [] := by
  simp [visible, occupancy, h]

/-- Settles O8: a boot that is not refused is the release with the image's memory. -/
theorem bootLeavesResetValues : Obligations.BootLeavesResetValues := by
  intro cfg image s h
  obtain ⟨-, -, -, rfl⟩ := boot_ok h
  exact ⟨rfl, rfl, rfl, rfl, rfl, rfl, rfl, rfl, rfl, rfl, List.length_replicate, visible_of_head_eq_tail rfl⟩

/-- Settles O59: a reset is a boot with the machine's parameters, whatever its state was. -/
theorem hostResetRestoresResetValues : Obligations.HostResetRestoresResetValues := by
  intro s t image h
  obtain ⟨u, hb, rfl⟩ := hostReset_ok h
  have hinv := bootedStateIsLegal _ _ _ hb
  obtain ⟨hcfg, hpc, hrun, hcause, hirq, hterm, hcnt, hhead, htail, hout, hlen, -⟩ := bootLeavesResetValues _ _ _ hb
  exact ⟨{ hinv with }, hcfg, ⟨u, hb, rfl⟩, hpc, hrun, hcause, hirq, hterm, hcnt, hhead, htail, hout, hlen, rfl⟩

end Sys2Proof.Machine
end

section
/-! The queue's visible content (R19): what `push` and `pop` make of the bytes from `tail` up to `head`. -/

namespace Sys2Proof.Machine

variable {s : State} {cfg : Config} {byte : Byte} {i : Nat}

/-! ## The cursors -/

theorem nextSlot_eq (h : i < cfg.kbufCap) : nextSlot cfg i = if i + 1 = cfg.kbufCap then 0 else i + 1 := by
  unfold nextSlot
  split
  · rename_i hi
    rw [hi, Nat.mod_self]
  · exact Nat.mod_eq_of_lt (by omega)

theorem occupancy_eq (hh : s.head < s.cfg.kbufCap) (ht : s.tail < s.cfg.kbufCap) :
    occupancy s = if s.tail ≤ s.head then s.head - s.tail else s.head + s.cfg.kbufCap - s.tail := by
  unfold occupancy
  split
  · rw [Nat.sub_add_comm ‹_›, Nat.add_mod_right, Nat.mod_eq_of_lt (by omega)]
  · exact Nat.mod_eq_of_lt (by omega)

/-- The slot a cursor's distance `i` past `tail` is the one at `head` exactly after all visible bytes (R19). -/
theorem slot_eq_head_iff (hh : s.head < s.cfg.kbufCap) (ht : s.tail < s.cfg.kbufCap) (hi : i < s.cfg.kbufCap) :
    (s.tail + i) % s.cfg.kbufCap = s.head ↔ i = occupancy s := by
  rw [occupancy_eq hh ht]
  by_cases hwrap : s.tail + i < s.cfg.kbufCap
  · rw [Nat.mod_eq_of_lt hwrap]
    split <;> omega
  · rw [Nat.mod_eq_sub_mod (by omega), Nat.mod_eq_of_lt (by omega)]
    split <;> omega

/-! ## `pop` -/

/-- Moving `tail` on takes one byte off a buffer that is not empty (R107). -/
theorem occupancy_advance_tail (h : s.Inv) (hne : s.head ≠ s.tail) :
    occupancy s = occupancy { s with tail := nextSlot s.cfg s.tail } + 1 := by
  have hh := h.head_lt
  have ht := h.tail_lt
  rw [occupancy_eq hh ht, occupancy_eq (s := { s with tail := nextSlot s.cfg s.tail }) hh (nextSlot_lt h.cfg_ok _)]
  simp only [nextSlot_eq ht]
  split_ifs <;> omega

/-- A buffer that is not empty shows the byte at `tail`, then what it shows with `tail` moved on (R107). -/
theorem visible_of_head_ne_tail (h : s.Inv) (hne : s.head ≠ s.tail) :
    visible s = s.buf.getD s.tail 0 :: visible { s with tail := nextSlot s.cfg s.tail } := by
  unfold visible
  rw [occupancy_advance_tail h hne, List.range_succ_eq_map, List.map_cons, List.map_map, Nat.add_zero,
    Nat.mod_eq_of_lt h.tail_lt]
  refine congrArg (_ :: ·) (List.map_congr_left fun i _ => ?_)
  have hindex : (nextSlot s.cfg s.tail + i) % s.cfg.kbufCap = (s.tail + (i + 1)) % s.cfg.kbufCap := by
    rw [nextSlot, Nat.mod_add_mod, Nat.add_assoc, Nat.add_comm 1]
  simp only [Function.comp_apply, hindex]

/-- `pop` answers the first visible byte, EMPTY where there is none, and leaves the others (R107). -/
theorem pop_visible (h : s.Inv) : (pop s).1 = (visible s).head? ∧ visible (pop s).2 = (visible s).tail := by
  obtain ⟨he, e⟩ | ⟨hne, e⟩ := pop_cases s
  · simp [e, visible_of_head_eq_tail he]
  · rw [e, visible_of_head_ne_tail h hne]
    exact ⟨rfl, rfl⟩

/-! ## `push` -/

section
variable (hh : s.head < s.cfg.kbufCap) (ht : s.tail < s.cfg.kbufCap) (hlen : s.buf.length = s.cfg.kbufCap)
include hh ht

/-- Moving `head` on adds one byte, or all are lost where it meets `tail` (R106, R109). -/
theorem occupancy_advance_head (buf : List Byte) :
    occupancy { s with buf := buf, head := nextSlot s.cfg s.head } =
      if occupancy s + 1 < s.cfg.kbufCap then occupancy s + 1 else 0 := by
  have hnext : nextSlot s.cfg s.head < s.cfg.kbufCap := Nat.mod_lt _ (by omega)
  rw [occupancy_eq (s := { s with buf := buf, head := nextSlot s.cfg s.head }) hnext ht, occupancy_eq hh ht]
  simp only [nextSlot_eq hh]
  split_ifs <;> omega

include hlen

/-- The byte written at `head` lies just past the visible ones, which keep theirs. -/
theorem getD_set_head (hi : i < s.cfg.kbufCap) :
    (s.buf.set s.head byte).getD ((s.tail + i) % s.cfg.kbufCap) 0 =
      if i = occupancy s then byte else s.buf.getD ((s.tail + i) % s.cfg.kbufCap) 0 := by
  have hin : s.head < s.buf.length := hh.trans_eq hlen.symm
  rw [List.getD_eq_getElem?_getD, List.getElem?_set, if_congr (eq_comm.trans (slot_eq_head_iff hh ht hi)) rfl rfl,
    if_pos hin]
  split
  · rfl
  · rw [List.getD_eq_getElem?_getD]

/-- The append shows its byte after the others, or empties a buffer that is full (R106, R109). -/
theorem visible_appendByte :
    visible (appendByte byte s) =
      if s.term then visible s else if occupancy s + 1 < s.cfg.kbufCap then visible s ++ [byte] else [] := by
  unfold appendByte
  split
  · rfl
  unfold visible
  rw [occupancy_advance_head hh ht]
  split
  · rename_i hroom
    rw [List.range_succ, List.map_append]
    congr 1
    · refine List.map_congr_left fun i hi => ?_
      have hlt := List.mem_range.1 hi
      exact (getD_set_head hh ht hlen (by omega)).trans (if_neg hlt.ne)
    · exact congrArg (· :: []) ((getD_set_head hh ht hlen (by omega)).trans (if_pos rfl))
  · rfl

end

/-- The interrupt byte empties the buffer before it is appended; another byte leaves it (R103, R105). -/
theorem visible_noteByte (byte : Byte) (s : State) :
    visible (noteByte byte s) = if byte = intByte then [] else visible s := by
  unfold noteByte
  split
  · exact visible_of_head_eq_tail rfl
  · rfl

end Sys2Proof.Machine
end

section
/-! The hidden slots of the buffer cannot be observed (R19, U2). Exchanging the buffer's slots for others commutes with
an engine cycle that sees the same byte at `tail`, and with the parts of a push; the visible bytes decide what is
visible afterwards. -/

namespace Sys2Proof.Machine

variable {s t u : State} {b : List Byte} {i : Instr} {byte : Byte} {addr : Nat} {v : Int}

/-- The state with other slots in its buffer. -/
def setBuf (b : List Byte) (s : State) : State := { s with buf := b }

/-- The next state changed by `f`; an answer without one as it is. -/
def mapNext (f : State → State) : Result → Result
  | .next s => .next (f s)
  | .fault r => .fault r
  | .refused r => .refused r

/-- What `sameButHiddenSlots` relates: a state, and the same with other slots that show the same bytes. -/
theorem sameButHiddenSlots_iff :
    sameButHiddenSlots s t ↔ ∃ b, t = setBuf b s ∧ visible (setBuf b s) = visible s := by
  constructor
  · rintro ⟨ht, hv⟩
    have ht : t = setBuf t.buf s := ht
    exact ⟨t.buf, ht, ht ▸ hv.symm⟩
  · rintro ⟨b, rfl, hv⟩
    exact ⟨rfl, hv.symm⟩

/-! ## The engine cycle -/

theorem memRead_setBuf {k k' : Int → Result} (hk : ∀ v, k' v = mapNext (setBuf b) (k v)) :
    memRead addr (setBuf b s) k' = mapNext (setBuf b) (memRead addr s k) := by
  unfold memRead
  split
  · exact hk _
  · rfl

theorem storeCell_setBuf : storeCell addr v (setBuf b s) = setBuf b (storeCell addr v s) := by
  rw [storeCell_eq, storeCell_eq]
  rfl

theorem memWrite_setBuf {k k' : State → Result} (hk : ∀ s, k' (setBuf b s) = mapNext (setBuf b) (k s)) :
    memWrite addr v (setBuf b s) k' = mapNext (setBuf b) (memWrite addr v s k) := by
  unfold memWrite
  split
  · rw [storeCell_setBuf]
    exact hk _
  · rfl

theorem branch_setBuf (r c : Int) (s : State) : branch r c (setBuf b s) = setBuf b (branch r c s) := by
  rw [branch_eq, branch_eq]
  rfl

/-- `pop` moves `tail` the same way whatever the slots hold (R107). -/
theorem pop_setBuf_snd (b : List Byte) (s : State) : (pop (setBuf b s)).2 = setBuf b (pop s).2 := by
  rw [pop_state, pop_state]
  rfl

/-- An instruction does the same whatever the slots hold, but for the byte an IN pops. -/
theorem exec_setBuf (i : Instr) (hpop : (pop (setBuf b s)).1 = (pop s).1) :
    exec i (setBuf b s) = mapNext (setBuf b) (exec i s) := by
  cases i with
  | out a c =>
    simp only [exec, execOut]
    exact memRead_setBuf fun v => rfl
  | inp a c =>
    have hfst : (pop (clearIrq (setBuf b s))).1 = (pop (clearIrq s)).1 := by simpa using hpop
    have hsnd : (pop (clearIrq (setBuf b s))).2 = setBuf b (pop (clearIrq s)).2 := pop_setBuf_snd b (clearIrq s)
    simp only [exec, execInp, hfst, hsnd]
    exact memWrite_setBuf fun u => rfl
  | irq a c =>
    simp only [exec, execIrq]
    exact memWrite_setBuf fun u => rfl
  | subleq a a' c =>
    simp only [exec, execSubleq]
    exact memRead_setBuf fun x => memRead_setBuf fun y => memWrite_setBuf fun u =>
      congrArg Host.Outcome.next (branch_setBuf _ c u)

theorem rejected_setBuf (r : Reject) : rejected r (setBuf b s) = mapNext (setBuf b) (rejected r s) := by
  cases r with
  | aHigh => rfl
  | bHigh => rfl
  | aNeg =>
    simp only [rejected]
    rw [apply_ite (mapNext (setBuf b))]
    rfl
  | bNeg =>
    simp only [rejected]
    rw [apply_ite (mapNext (setBuf b))]
    rfl

/-- The checks before the instruction see no slot (R65). -/
theorem issue_setBuf (b : List Byte) (s : State) :
    issue (setBuf b s) = (issue s).mapError (mapNext (setBuf b)) := by
  have hfetch : fetch (setBuf b s) = fetch s := rfl
  have hpc : pcOutOfRange (setBuf b s) = pcOutOfRange s := rfl
  have hrange : fetchOutOfRange (setBuf b s) = fetchOutOfRange s := rfl
  have hterm : (setBuf b s).term = s.term := rfl
  simp only [issue, hfetch, hpc, hrange, hterm]
  split
  · rfl
  split
  · rfl
  split
  · rfl
  cases decode (fetch s) with
  | ok i => rfl
  | error r => exact congrArg Except.error (rejected_setBuf r)

/-- An engine cycle does the same whatever the slots hold, but for the byte an IN pops. -/
theorem engineCycle_setBuf (hpop : (pop (setBuf b s)).1 = (pop s).1) :
    engineCycle (setBuf b s) = mapNext (setBuf b) (engineCycle s) := by
  unfold engineCycle
  rw [issue_setBuf]
  cases issue s with
  | ok i => exact exec_setBuf i hpop
  | error ended => rfl

/-- What is visible depends on the parameters, the slots and the cursors alone. -/
theorem visible_congr (hcfg : t.cfg = u.cfg) (hbuf : t.buf = u.buf) (hhead : t.head = u.head)
    (htail : t.tail = u.tail) : visible t = visible u := by
  unfold visible occupancy
  rw [hcfg, hbuf, hhead, htail]

/-- An engine cycle leaves the buffer as it is, or as a `pop` leaves it (R111). -/
theorem engineCycle_buffer (h : engineCycle s = .next t) :
    ∃ u, (u = s ∨ u = (pop s).2) ∧ t.cfg = u.cfg ∧ t.buf = u.buf ∧ t.head = u.head ∧ t.tail = u.tail := by
  obtain ⟨-, rfl⟩ | ⟨-, cause, -, rfl⟩ | ⟨-, -, -, i, -, -, he⟩ := engineCycle_next h
  · exact ⟨s, .inl rfl, rfl, rfl, rfl, rfl⟩
  · exact ⟨s, .inl rfl, rfl, rfl, rfl, rfl⟩
  · obtain ⟨hcfg, -, -, -, hbuf, hhead, -⟩ := instructionRegisterFrame i s t he
    have htail := exec_tail he
    split at htail
    · exact ⟨(pop s).2, .inr rfl, by simpa, by simpa, by simpa, htail⟩
    · exact ⟨s, .inl rfl, hcfg, hbuf, hhead, htail⟩

section
variable (hs : s.Inv) (hb : (setBuf b s).Inv) (hv : visible (setBuf b s) = visible s)
include hs hb hv

/-- A `pop` answers the same from slots that show the same. -/
theorem pop_setBuf_fst : (pop (setBuf b s)).1 = (pop s).1 := by
  rw [(pop_visible hb).1, (pop_visible hs).1, hv]

theorem visible_setBuf_pop : visible (setBuf b (pop s).2) = visible (pop s).2 := by
  rw [← pop_setBuf_snd, (pop_visible hb).2, (pop_visible hs).2, hv]

/-- Slots that show the same before an engine cycle show the same after it. -/
theorem visible_setBuf_engineCycle (h : engineCycle s = .next t) : visible (setBuf b t) = visible t := by
  obtain ⟨u, hu, hcfg, hbuf, hhead, htail⟩ := engineCycle_buffer h
  have hshown : visible (setBuf b u) = visible u := by
    obtain rfl | rfl := hu
    · exact hv
    · exact visible_setBuf_pop hs hb hv
  calc visible (setBuf b t)
      _ = visible (setBuf b u) := visible_congr hcfg rfl hhead htail
      _ = visible u := hshown
      _ = visible t := (visible_congr hcfg hbuf hhead htail).symm

end

/-! ## The push -/

theorem noteByte_setBuf (byte : Byte) (b : List Byte) (s : State) :
    noteByte byte (setBuf b s) = setBuf b (noteByte byte s) := by
  unfold noteByte
  split <;> rfl

/-- The append writes the same slot whatever the slots hold (R106). -/
theorem appendByte_setBuf (byte : Byte) (b : List Byte) (s : State) :
    ∃ b', appendByte byte (setBuf b s) = setBuf b' (appendByte byte s) := by
  cases h : s.term with
  | true => exact ⟨b, by simp [appendByte, setBuf, h]⟩
  | false => exact ⟨b.set s.head byte, by simp [appendByte, setBuf, h]⟩

/-- The first half of `push` leaves the cursors in range (R103). -/
theorem noteByte_cursors (h : s.Inv) (byte : Byte) :
    (noteByte byte s).head < (noteByte byte s).cfg.kbufCap ∧ (noteByte byte s).tail < (noteByte byte s).cfg.kbufCap ∧
      (noteByte byte s).buf.length = (noteByte byte s).cfg.kbufCap := by
  have hpos := Nat.zero_lt_of_lt h.head_lt
  unfold noteByte
  split
  · exact ⟨hpos, hpos, h.buf_len⟩
  · exact ⟨h.head_lt, h.tail_lt, h.buf_len⟩

/-- Slots that show the same before a push show the same after it: nothing more, the byte pushed, or no byte at all. -/
theorem push_sameButHiddenSlots (hs : s.Inv) (hb : (setBuf b s).Inv) (hv : visible (setBuf b s) = visible s)
    (byte : Byte) : sameButHiddenSlots (push byte s) (push byte (setBuf b s)) := by
  cases hterm : s.term with
  | true =>
    rw [push, if_pos hterm, push, if_pos (show (setBuf b s).term = true from hterm)]
    exact sameButHiddenSlots_iff.2 ⟨b, rfl, hv⟩
  | false =>
    rw [push, if_neg (by simp [hterm]), push, if_neg (by simp [setBuf, hterm])]
    obtain ⟨hh, ht, hlen⟩ := noteByte_cursors hs byte
    obtain ⟨hh', ht', hlen'⟩ := noteByte_cursors hb byte
    have hnote : visible (noteByte byte (setBuf b s)) = visible (noteByte byte s) := by
      rw [visible_noteByte, visible_noteByte, hv]
    have happend : visible (appendByte byte (noteByte byte (setBuf b s))) =
        visible (appendByte byte (noteByte byte s)) := by
      rw [visible_appendByte hh' ht' hlen', visible_appendByte hh ht hlen, hnote, noteByte_setBuf]
      rfl
    rw [noteByte_setBuf] at happend ⊢
    obtain ⟨b', hb'⟩ := appendByte_setBuf byte b (noteByte byte s)
    rw [hb'] at happend ⊢
    exact sameButHiddenSlots_iff.2 ⟨b', rfl, happend⟩

/-! ## The step -/

/-- The host sees no slot of the buffer (R127). -/
theorem hostView_of_sameButHiddenSlots (h : sameButHiddenSlots s t) : hostView s = hostView t := by
  obtain ⟨b, rfl, -⟩ := sameButHiddenSlots_iff.1 h
  rfl

/-- Settles O54: each of the two agents keeps the relation. -/
theorem hiddenSlotsCannotBeObserved : Obligations.HiddenSlotsCannotBeObserved := by
  intro s t s' hs ht hsame hstep
  obtain ⟨b, rfl, hv⟩ := sameButHiddenSlots_iff.1 hsame
  have hs := dropTurn_inv hs
  have hb : (setBuf b (dropTurn s)).Inv := dropTurn_inv ht
  suffices h : ∃ t', step (setBuf b s) = .next t' ∧ sameButHiddenSlots s' t' by
    obtain ⟨t', hstep', hsame'⟩ := h
    exact ⟨t', hstep', hsame', hostView_of_sameButHiddenSlots hsame'⟩
  obtain ⟨hr, ⟨byte, hn, rfl⟩ | ⟨hn, hcycle⟩⟩ := step_next hstep
  · exact ⟨_, step_capture (s := setBuf b s) hr hn, push_sameButHiddenSlots hs hb hv byte⟩
  · have hcycle' : engineCycle (setBuf b (dropTurn s)) = .next (setBuf b s') := by
      rw [engineCycle_setBuf (pop_setBuf_fst hs hb hv), hcycle]
      rfl
    exact ⟨_, (step_engine (s := setBuf b s) hr hn).trans hcycle',
      sameButHiddenSlots_iff.2 ⟨b, rfl, visible_setBuf_engineCycle hs hb hv hcycle⟩⟩

end Sys2Proof.Machine
end

section
/-! The address decoder's classes (R32): what they say of decoding and of stores, and the memory frame of every
instruction (R35, R38). -/

namespace Sys2Proof.Machine

variable {cfg : Config} {triple : Triple} {x : Nat}

/-! ## The classes and the discard -/

theorem classify_eq_ro {v : Int} :
    classify cfg v = .ro ↔ 0 ≤ v ∧ v < 16777216 ∧ (cfg.tableBase : Int) ≤ v := by
  have hm := memSize_cast
  unfold classify
  split_ifs <;> simp only [true_iff, false_iff] <;> omega

theorem classify_eq_rw {v : Int} :
    classify cfg v = .rw ↔ 0 ≤ v ∧ v < 16777216 ∧ v < (cfg.tableBase : Int) := by
  have hm := memSize_cast
  unfold classify
  split_ifs <;> simp only [true_iff, false_iff] <;> omega

/-- The two classes RO and RW make up memory (R32, R33). -/
theorem classify_inside_iff {v : Int} :
    classify cfg v = .ro ∨ classify cfg v = .rw ↔ 0 ≤ v ∧ v < 16777216 := by
  rw [classify_eq_ro, classify_eq_rw]
  omega

theorem writeDiscarded_iff : writeDiscarded cfg x = true ↔ cfg.writeProtect = true ∧ cfg.tableBase ≤ x := by
  simp [writeDiscarded]

theorem writeDiscarded_eq_false_iff :
    writeDiscarded cfg x = false ↔ ¬ (cfg.writeProtect = true ∧ cfg.tableBase ≤ x) := by
  rw [← writeDiscarded_iff, Bool.not_eq_true]

/-! ## Decoding -/

/-- A triple decodes exactly when both operands lie inside memory, whatever `c` holds (R33, R56). -/
theorem decode_ok_iff :
    (∃ i, decode triple = .ok i) ↔
      (0 ≤ triple.a ∧ triple.a < 16777216) ∧ 0 ≤ triple.b ∧ triple.b < 16777216 := by
  obtain ⟨_, e⟩ | ⟨_, _, e⟩ | ⟨_, _, e⟩ | ⟨_, _, _, e⟩ | ⟨ha, ha', hb, hb', e⟩ := decode_cases triple
  case inr.inr.inr.inr => exact ⟨fun _ => ⟨⟨ha, ha'⟩, hb, hb'⟩, fun _ => ⟨_, e⟩⟩
  all_goals
    rw [e]
    simp only [reduceCtorEq, exists_false, false_iff]
    omega

/-- Settles O42: RO and RW are the addresses inside memory, and write protection discards exactly the stores to RO. -/
theorem addressClassesDecideOutcome : Obligations.AddressClassesDecideOutcome := by
  refine ⟨fun cfg triple => ?_, fun s n v hro hprotect => ?_, fun s n v hm hclass => ?_⟩
  · rw [decode_ok_iff, classify_inside_iff, classify_inside_iff]
  · obtain ⟨-, -, hbase⟩ := classify_eq_ro.1 hro
    exact storeCell_discarded (writeDiscarded_iff.2 ⟨hprotect, by omega⟩)
  · have hlands : writeDiscarded s.cfg n = false := by
      rw [writeDiscarded_eq_false_iff]
      rintro ⟨hprotect, hbase⟩
      obtain hrw | ⟨-, hopen⟩ := hclass
      · obtain ⟨-, -, hlt⟩ := classify_eq_rw.1 hrw
        omega
      · simp [hopen] at hprotect
    rw [storeCell_cell hm, if_pos ⟨rfl, hlands⟩]

/-! ## The memory frame -/

/-- Settles O21: what a cell holds after an instruction, read off its store target. -/
theorem instructionMemoryFrame : Obligations.InstructionMemoryFrame := by
  intro i s t hm h x
  rw [exec_cell hm h x]
  cases htarget : storeTarget i with
  | none => simp
  | some b =>
    simp only [Option.some.injEq, eq_comm (a := b), ← writeDiscarded_eq_false_iff]
    exact if_congr (and_congr_right fun hx => hx ▸ Iff.rfl) rfl rfl

end Sys2Proof.Machine
end

section
/-! The accesses of a cycle (R38, R39): none without a fetch, the fetch's reads, and those of the form performed; all
inside memory (R33). -/

namespace Sys2Proof.Machine

variable {s : State} {triple : Triple} {i : Instr} {x : Nat} {v : Int}

/-! ## The cycles that fetch -/

/-- The cycle gets to its fetch: it does not terminate, and the triple at `pc` lies inside memory (R66 to R68). -/
def fetches (s : State) : Prop := s.term = false ∧ 0 ≤ s.pc ∧ s.pc ≤ 16777213

theorem fetches_iff : fetches s ↔ s.term = false ∧ pcOutOfRange s = false ∧ fetchOutOfRange s = false := by
  have hm := memSize_cast
  simp only [fetches, pcOutOfRange, fetchOutOfRange, Bool.or_eq_false_iff, decide_eq_false_iff_not]
  exact and_congr_right fun _ => by omega

/-- A cycle performs the instruction its fetch decodes to, and none without a fetch (R65). -/
theorem issue_eq_ok_iff : issue s = .ok i ↔ fetches s ∧ decode (fetch s) = .ok i := by
  obtain ⟨ht, e⟩ | ⟨-, hpc, e⟩ | ⟨-, hpc, e⟩ | ⟨ht, h0, h1, ⟨j, hd, e⟩ | ⟨r, hd, e⟩⟩ := issue_cases s
  · simp [e, fetches, ht]
  · simp only [e, fetches, reduceCtorEq, false_iff]
    omega
  · simp only [e, fetches, reduceCtorEq, false_iff]
    omega
  · simp [e, fetches, ht, h0, h1, hd]
  · simp [e, hd]

/-- A triple that does not decode ends the cycle as its rejection says (R70, R71). -/
theorem issue_rejected (hf : fetches s) {r : Reject} (hd : decode (fetch s) = .error r) :
    issue s = .error (rejected r s) := by
  obtain ⟨ht, hp, hr⟩ := fetches_iff.1 hf
  simp [issue, ht, hp, hr, hd]

/-- Taking the turn off the schedule changes nothing the checks look at. -/
theorem performs_iff : performs s i ↔ engineNext s ∧ issue s = .ok i := by
  unfold performs
  rw [issue_eq_ok_iff, issue_eq_ok_iff]
  rfl

/-- A `pc` whose triple reaches past memory is a fault (R67, R68). -/
theorem engineCycle_of_pc_high (ht : s.term = false) (h : 16777214 ≤ s.pc) :
    ∃ cause, engineCycle s = .next (raiseFault cause s) := by
  obtain ⟨hterm, -⟩ | ⟨-, -, e⟩ | ⟨-, -, e⟩ | ⟨-, -, h1, -⟩ := issue_cases s
  · simp [ht] at hterm
  · exact ⟨_, by rw [engineCycle, e]⟩
  · exact ⟨_, by rw [engineCycle, e]⟩
  · omega

/-- An operand past memory is a fault, with `NEG_OPERAND_FAULT` and without (R70). -/
theorem engineCycle_of_operand_high (hf : fetches s) (h : 16777216 ≤ (fetch s).a ∨ 16777216 ≤ (fetch s).b) :
    ∃ r cause, decode (fetch s) = .error r ∧ engineCycle s = .next (raiseFault cause s) := by
  obtain ⟨_, e⟩ | ⟨_, _, e⟩ | ⟨_, _, e⟩ | ⟨_, _, _, e⟩ | ⟨_, _, _, _, e⟩ := decode_cases (fetch s)
  · exact ⟨_, .aHigh, e, by rw [engineCycle, issue_rejected hf e]; rfl⟩
  · exact ⟨_, .bHigh, e, by rw [engineCycle, issue_rejected hf e]; rfl⟩
  all_goals omega

/-! ## The accesses of each kind of cycle -/

theorem cycleAccesses_unfetched (h : ¬ fetches s) : cycleAccesses s = [] := by
  refine if_pos (Bool.eq_true_of_not_eq_false fun hpass => h (fetches_iff.2 ?_))
  simpa only [Bool.or_eq_false_iff, and_assoc] using hpass

theorem cycleAccesses_performed (h : issue s = .ok i) :
    cycleAccesses s = (fetchReads s).map Access.read ++ formAccesses i s := by
  obtain ⟨hf, hd⟩ := issue_eq_ok_iff.1 h
  obtain ⟨ht, hp, hr⟩ := fetches_iff.1 hf
  simp [cycleAccesses, ht, hp, hr, hd]

theorem cycleAccesses_rejected (hf : fetches s) {r : Reject} (hd : decode (fetch s) = .error r) :
    cycleAccesses s = (fetchReads s).map Access.read := by
  obtain ⟨ht, hp, hr⟩ := fetches_iff.1 hf
  simp [cycleAccesses, ht, hp, hr, hd]

/-- A form reads its operand cells and none else (R38). -/
theorem read_mem_formAccesses : Access.read x ∈ formAccesses i s ↔ x ∈ operandReads i := by
  simp [formAccesses]

/-- A form writes the cell its store names, and presents its value (R38). -/
theorem write_mem_formAccesses :
    Access.write x v ∈ formAccesses i s ↔ storeTarget i = some x ∧ v = storeValue i s := by
  cases h : storeTarget i <;> simp [formAccesses, h, eq_comm]

/-- The reads of a cycle: those of its fetch, and of the form it performs (R38). -/
theorem read_mem_cycleAccesses :
    Access.read x ∈ cycleAccesses s ↔
      fetches s ∧ (x ∈ fetchReads s ∨ ∃ i, issue s = .ok i ∧ x ∈ operandReads i) := by
  by_cases hf : fetches s
  · cases hd : decode (fetch s) with
    | ok i =>
      have hi : issue s = .ok i := issue_eq_ok_iff.2 ⟨hf, hd⟩
      simp [cycleAccesses_performed hi, read_mem_formAccesses, hf, hi]
    | error r => simp [cycleAccesses_rejected hf hd, issue_eq_ok_iff, hf, hd]
  · simp [cycleAccesses_unfetched hf, hf]

/-- The writes of a cycle: that of the form it performs (R38). -/
theorem write_mem_cycleAccesses :
    Access.write x v ∈ cycleAccesses s ↔ ∃ i, issue s = .ok i ∧ storeTarget i = some x ∧ v = storeValue i s := by
  by_cases hf : fetches s
  · cases hd : decode (fetch s) with
    | ok i =>
      have hi : issue s = .ok i := issue_eq_ok_iff.2 ⟨hf, hd⟩
      simp [cycleAccesses_performed hi, write_mem_formAccesses, hi]
    | error r => simp [cycleAccesses_rejected hf hd, issue_eq_ok_iff, hd]
  · simp [cycleAccesses_unfetched hf, issue_eq_ok_iff, hf]

/-! ## Every access lies inside memory -/

theorem fetchReads_inside (hf : fetches s) (hx : x ∈ fetchReads s) : x < 16777216 := by
  obtain ⟨-, h0, h1⟩ := hf
  simp only [fetchReads, List.mem_cons, List.not_mem_nil, or_false] at hx
  omega

/-- What the decoder accepts reads and stores inside memory (R33). -/
theorem decode_operands_inside (h : decode triple = .ok i) :
    (∀ x ∈ operandReads i, x < 16777216) ∧ ∀ x, storeTarget i = some x → x < 16777216 := by
  obtain ⟨-, e⟩ | ⟨-, -, e⟩ | ⟨-, -, e⟩ | ⟨-, -, -, e⟩ | ⟨ha, ha', hb, hb', e⟩ := decode_cases triple
  all_goals rw [e] at h
  case inr.inr.inr.inr =>
    have ha : triple.a.toNat < 16777216 := by omega
    have hb : triple.b.toNat < 16777216 := by omega
    generalize selectForm triple.a.toNat triple.b.toNat = form at h
    cases form <;> cases h <;> simp [assemble, operandReads, storeTarget, ha, hb]
  all_goals cases h

/-- No access of a cycle lies outside memory (R33). -/
theorem cycleAccesses_inside (h : Access.read x ∈ cycleAccesses s ∨ ∃ v, Access.write x v ∈ cycleAccesses s) :
    x < 16777216 := by
  obtain hread | ⟨v, hwrite⟩ := h
  · obtain ⟨hf, hx | ⟨i, hi, hx⟩⟩ := read_mem_cycleAccesses.1 hread
    · exact fetchReads_inside hf hx
    · obtain ⟨-, hd⟩ := issue_eq_ok_iff.1 hi
      exact (decode_operands_inside hd).1 x hx
  · obtain ⟨i, hi, htarget, -⟩ := write_mem_cycleAccesses.1 hwrite
    obtain ⟨-, hd⟩ := issue_eq_ok_iff.1 hi
    exact (decode_operands_inside hd).2 x htarget

/-- Settles O55: by how far the cycle gets, to its checks of `pc`, of the operands, or to a form. -/
theorem cycleAccessesStayInsideMemory : Obligations.CycleAccessesStayInsideMemory := by
  refine ⟨fun s x h => cycleAccesses_inside h, fun s hnext ht hpc => ?_, fun s hnext ht h0 h1 => ⟨fun hhigh => ?_, ?_⟩,
    fun s i hperforms => ?_⟩
  · have hpc : 16777214 ≤ s.pc := by omega
    obtain ⟨cause, hcycle⟩ := engineCycle_of_pc_high (s := dropTurn s) ht hpc
    refine ⟨_, (step_engine hnext.1 hnext.2).trans hcycle, rfl, cycleAccesses_unfetched ?_⟩
    rintro ⟨-, -, h1⟩
    omega
  · have hf : fetches s := ⟨ht, h0, h1⟩
    obtain ⟨r, cause, hd, hcycle⟩ := engineCycle_of_operand_high (s := dropTurn s) hf hhigh
    exact ⟨_, (step_engine hnext.1 hnext.2).trans hcycle, rfl, cycleAccesses_rejected hf hd⟩
  · intro ha ha' hb hb'
    obtain ⟨i, hd⟩ := decode_ok_iff (triple := fetch s).2 ⟨⟨ha, ha'⟩, hb, hb'⟩
    exact ⟨i, performs_iff.2 ⟨hnext, issue_eq_ok_iff.2 ⟨⟨ht, h0, h1⟩, hd⟩⟩⟩
  · obtain ⟨-, hi⟩ := performs_iff.1 hperforms
    obtain ⟨⟨-, h0, h1⟩, -⟩ := issue_eq_ok_iff.1 hi
    exact ⟨h0, by omega, cycleAccesses_performed hi⟩

end Sys2Proof.Machine
end

section
/-! A cycle depends on memory only through the cells it reads (R38, R39, R76). With a memory that agrees on those it makes
the same accesses and does the same but for memory; and what it does to memory is its one write. -/

namespace Sys2Proof.Machine

variable {s t : State} {i : Instr} {m : Memory} {x : Nat} {v : Int}

/-! ## What a cycle does to memory -/

/-- The cell a cycle writes takes the value presented, where the store lands (R35). -/
theorem engineCycle_cell_written (hm : Memory.wf s.cfg s.mem = true) (h : engineCycle s = .next t)
    (hwrite : Access.write x v ∈ cycleAccesses s) (hlands : writeDiscarded s.cfg x = false) : t.cell x = v := by
  obtain ⟨i, hi, htarget, rfl⟩ := write_mem_cycleAccesses.1 hwrite
  have he : exec i s = .next t := by simpa [engineCycle, hi] using h
  rw [exec_cell hm he, if_pos ⟨htarget, hlands⟩]

/-- Every cell a cycle does not write, or writes in vain, keeps its value (R35). -/
theorem engineCycle_cell_unwritten (hm : Memory.wf s.cfg s.mem = true) (h : engineCycle s = .next t)
    (hkept : (∀ v, Access.write x v ∉ cycleAccesses s) ∨ writeDiscarded s.cfg x = true) : t.cell x = s.cell x := by
  obtain ⟨-, rfl⟩ | ⟨-, cause, -, rfl⟩ | ⟨-, -, -, i, -, hi, he⟩ := engineCycle_next h
  · rfl
  · rfl
  rw [exec_cell hm he, if_neg]
  rintro ⟨htarget, hlands⟩
  obtain hnone | hdiscarded := hkept
  · exact hnone _ (write_mem_cycleAccesses.2 ⟨i, hi, htarget, rfl⟩)
  · simp [hlands] at hdiscarded

/-- A cycle keeps the parameters (R3). -/
theorem engineCycle_cfg (h : engineCycle s = .next t) : t.cfg = s.cfg := by
  obtain ⟨u, rfl | rfl, hcfg, -⟩ := engineCycle_buffer h
  · exact hcfg
  · rw [hcfg, pop_cfg]

/-! ## The checks under an update of the state -/

section
variable {f : State → State} (hcfg : (f s).cfg = s.cfg)
  (hfault : ∀ cause, raiseFault cause (f s) = f (raiseFault cause s))
include hcfg hfault

/-- What a rejected triple leads to commutes with every update that keeps the parameters and raises faults as before. -/
theorem rejected_map (r : Reject) : rejected r (f s) = mapNext f (rejected r s) := by
  cases r with
  | aHigh => exact congrArg Host.Outcome.next (hfault .aHigh)
  | bHigh => exact congrArg Host.Outcome.next (hfault .bHigh)
  | aNeg =>
    simp only [rejected, hcfg, hfault, apply_ite (mapNext f)]
    rfl
  | bNeg =>
    simp only [rejected, hcfg, hfault, apply_ite (mapNext f)]
    rfl

/-- So do the checks before the instruction, where the update keeps also `term`, `pc` and the cells fetched. -/
theorem issue_map (hend : terminate (f s) = f (terminate s)) (hterm : (f s).term = s.term) (hpc : (f s).pc = s.pc)
    (hfetch : fetches s → fetch (f s) = fetch s) : issue (f s) = (issue s).mapError (mapNext f) := by
  have hp : pcOutOfRange (f s) = pcOutOfRange s := by rw [pcOutOfRange, pcOutOfRange, hpc]
  have hr : fetchOutOfRange (f s) = fetchOutOfRange s := by rw [fetchOutOfRange, fetchOutOfRange, hpc]
  simp only [issue, hterm, hp, hr, hend, hfault]
  split
  · rfl
  split
  · rfl
  split
  · rfl
  rename_i hrunning hinside hwhole
  rw [hfetch (fetches_iff.2 ⟨eq_false_of_ne_true hrunning, eq_false_of_ne_true hinside, eq_false_of_ne_true hwhole⟩)]
  cases decode (fetch s) with
  | ok i => rfl
  | error r => exact congrArg Except.error (rejected_map hcfg hfault r)

end

/-! ## The same cycle on another memory -/

/-- The state with another memory. -/
def setMem (m : Memory) (s : State) : State := { s with mem := m }

/-- `pop` does not see memory (R107). -/
theorem pop_setMem (m : Memory) (s : State) : pop (setMem m s) = ((pop s).1, setMem m (pop s).2) := by
  obtain ⟨h, e⟩ | ⟨h, e⟩ := pop_cases s
  · rw [e]
    exact if_pos h
  · rw [e]
    exact if_neg h

/-- A store changes nothing but memory, whatever memory it finds. -/
theorem storeCell_setMem (b : Nat) (v : Int) (m : Memory) (s : State) :
    ∃ m', storeCell b v (setMem m s) = setMem m' (storeCell b v s) := by
  rw [storeCell_eq, storeCell_eq]
  exact ⟨_, rfl⟩

theorem storeValue_setMem (hreads : ∀ x ∈ operandReads i, (setMem m s).cell x = s.cell x) :
    storeValue i (setMem m s) = storeValue i s := by
  cases i with
  | out a c => rfl
  | inp b c => simp only [storeValue, pop_setMem]
  | irq b c => rfl
  | subleq a b c => simp only [storeValue, hreads a (by simp [operandReads]), hreads b (by simp [operandReads])]

/-- An instruction does the same, but for memory, on a memory that agrees on its operand cells. -/
theorem exec_setMem (h : exec i s = .next t) (hreads : ∀ x ∈ operandReads i, (setMem m s).cell x = s.cell x) :
    ∃ m', exec i (setMem m s) = .next (setMem m' t) := by
  obtain ⟨a, c, rfl, ha, rfl⟩ | ⟨b, c, rfl, hb, rfl⟩ | ⟨b, c, rfl, hb, rfl⟩ | ⟨a, b, c, rfl, ha, hb, rfl⟩ :=
    exec_next h
  · rw [exec_out ha, hreads a (by simp [operandReads])]
    exact ⟨m, rfl⟩
  · obtain ⟨m', hstore⟩ := storeCell_setMem b (inputCell (pop (clearIrq s)).1) m (pop (clearIrq s)).2
    have hpop : pop (clearIrq (setMem m s)) = ((pop (clearIrq s)).1, setMem m (pop (clearIrq s)).2) :=
      pop_setMem m (clearIrq s)
    rw [exec_inp hb, hpop, hstore]
    exact ⟨m', rfl⟩
  · obtain ⟨m', hstore⟩ := storeCell_setMem b (flagCell s.irq) m s
    rw [exec_irq hb, show (setMem m s).irq = s.irq from rfl, hstore]
    exact ⟨m', rfl⟩
  · obtain ⟨m', hstore⟩ := storeCell_setMem b (subWrapped (s.cell b) (s.cell a)) m s
    rw [exec_subleq ha hb, hreads a (by simp [operandReads]), hreads b (by simp [operandReads]), hstore, branch_eq,
      branch_eq]
    exact ⟨m', rfl⟩

section
variable (hreads : ∀ x, Access.read x ∈ cycleAccesses s → (setMem m s).cell x = s.cell x)
include hreads

theorem fetch_setMem (hf : fetches s) : fetch (setMem m s) = fetch s := by
  have hcell : ∀ x ∈ fetchReads s, (setMem m s).cell x = s.cell x :=
    fun x hx => hreads x (read_mem_cycleAccesses.2 ⟨hf, .inl hx⟩)
  simp only [fetchReads, List.forall_mem_cons] at hcell
  obtain ⟨ha, hb, hc, -⟩ := hcell
  rw [fetch, fetch, show (setMem m s).pc = s.pc from rfl, ha, hb, hc]

/-- The checks before the instruction see no cell but the fetched ones (R65, R69). -/
theorem issue_setMem : issue (setMem m s) = (issue s).mapError (mapNext (setMem m)) :=
  issue_map rfl (fun _ => rfl) rfl rfl rfl (fetch_setMem hreads)

theorem operands_setMem (hi : issue s = .ok i) : ∀ x ∈ operandReads i, (setMem m s).cell x = s.cell x :=
  fun x hx => hreads x (read_mem_cycleAccesses.2 ⟨(issue_eq_ok_iff.1 hi).1, .inr ⟨i, hi, hx⟩⟩)

/-- A cycle makes the same accesses on a memory that agrees on the cells it reads (R38). -/
theorem cycleAccesses_setMem : cycleAccesses (setMem m s) = cycleAccesses s := by
  have hfetches : fetches (setMem m s) ↔ fetches s := Iff.rfl
  by_cases hf : fetches s
  · have hfetch := fetch_setMem hreads hf
    cases hd : decode (fetch s) with
    | ok i =>
      have hi : issue s = .ok i := issue_eq_ok_iff.2 ⟨hf, hd⟩
      have hi' : issue (setMem m s) = .ok i := issue_eq_ok_iff.2 ⟨hf, hfetch ▸ hd⟩
      rw [cycleAccesses_performed hi, cycleAccesses_performed hi', formAccesses, formAccesses,
        storeValue_setMem (operands_setMem hreads hi)]
      rfl
    | error r =>
      rw [cycleAccesses_rejected hf hd, cycleAccesses_rejected (hfetches.2 hf) (hfetch ▸ hd)]
      rfl
  · rw [cycleAccesses_unfetched hf, cycleAccesses_unfetched (hfetches.not.2 hf)]

/-- A cycle does the same, but for memory, on a memory that agrees on the cells it reads (R76). -/
theorem engineCycle_setMem (h : engineCycle s = .next t) : ∃ m', engineCycle (setMem m s) = .next (setMem m' t) := by
  unfold engineCycle at h ⊢
  rw [issue_setMem hreads]
  cases hi : issue s with
  | ok i =>
    rw [hi] at h
    exact exec_setMem h (operands_setMem hreads hi)
  | error ended =>
    rw [hi] at h
    obtain rfl : ended = .next t := h
    exact ⟨m, rfl⟩

end

/-- Settles O34: both cycles make the same accesses, and each does to its memory what these say. -/
theorem cycleDependsOnlyOnCellsRead : Obligations.CycleDependsOnlyOnCellsRead := by
  intro s t m hs hm h hreads
  have haccesses : cycleAccesses (setMem m s) = cycleAccesses s := cycleAccesses_setMem hreads
  obtain ⟨m', h'⟩ := engineCycle_setMem (m := m) hreads h
  have hcell : ∀ x, Memory.read s.cfg m' x = (setMem m' t).cell x := fun x => by
    rw [← engineCycle_cfg h]
    rfl
  refine ⟨m', h', fun x v hwrite hlands => ?_, fun x hkept => ?_⟩
  · have hlands := writeDiscarded_eq_false_iff.2 hlands
    exact ⟨engineCycle_cell_written hs h hwrite hlands,
      (hcell x).trans (engineCycle_cell_written (s := setMem m s) hm h' (haccesses ▸ hwrite) hlands)⟩
  · have hkept := hkept.imp_right writeDiscarded_iff.2
    exact ⟨engineCycle_cell_unwritten hs h hkept,
      (hcell x).trans (engineCycle_cell_unwritten (s := setMem m s) hm h' (haccesses ▸ hkept))⟩

end Sys2Proof.Machine
end

section
/-! The decoder and the encoder (R50 to R57) are inverse to each other: decoding inside memory is the priority test of
R53 followed by `assemble`, and `encode` undoes it. -/

namespace Sys2Proof.Machine

variable {a b : Nat} {c : Int}

/-! ## Well-formedness and the priority test -/

@[simp] theorem wellFormed_out : (Instr.out a c).wellFormed = true ↔ a < memSize := by
  simp [Instr.wellFormed, addrInRange]

@[simp] theorem wellFormed_inp : (Instr.inp b c).wellFormed = true ↔ b < memSize ∧ b ≠ sentIO := by
  simp [Instr.wellFormed, addrInRange, notOutPort]

@[simp] theorem wellFormed_irq : (Instr.irq b c).wellFormed = true ↔ b < memSize ∧ b ≠ sentIO := by
  simp [Instr.wellFormed, addrInRange, notOutPort]

@[simp] theorem wellFormed_subleq :
    (Instr.subleq a b c).wellFormed = true ↔
      a < memSize ∧ b < memSize ∧ b ≠ sentIO ∧ a ≠ sentIO ∧ a ≠ sentIRQ := by
  simp [Instr.wellFormed, addrInRange, notOutPort, notReadPort, and_assoc]

theorem selectForm_out (a : Nat) : selectForm a sentIO = .out := if_pos rfl

theorem selectForm_inp (hb : b ≠ sentIO) : selectForm sentIO b = .inp := (if_neg hb).trans (if_pos rfl)

theorem selectForm_irq (hb : b ≠ sentIO) : selectForm sentIRQ b = .irq := if_neg hb

theorem selectForm_subleq (hb : b ≠ sentIO) (ha : a ≠ sentIO) (ha' : a ≠ sentIRQ) : selectForm a b = .subleq :=
  (if_neg hb).trans ((if_neg ha).trans (if_neg ha'))

/-- The priority test of R53: each form with the conditions that select it. -/
theorem selectForm_cases (a b : Nat) :
    (b = sentIO ∧ selectForm a b = .out) ∨
    (b ≠ sentIO ∧ a = sentIO ∧ selectForm a b = .inp) ∨
    (b ≠ sentIO ∧ a = sentIRQ ∧ selectForm a b = .irq) ∨
    (b ≠ sentIO ∧ a ≠ sentIO ∧ a ≠ sentIRQ ∧ selectForm a b = .subleq) := by
  unfold selectForm
  split_ifs with hb ha ha'
  · exact .inl ⟨hb, rfl⟩
  · exact .inr (.inl ⟨hb, ha, rfl⟩)
  · exact .inr (.inr (.inl ⟨hb, ha', rfl⟩))
  · exact .inr (.inr (.inr ⟨hb, ha, ha', rfl⟩))

/-! ## The instruction of the selected form -/

@[simp] theorem form_assemble (f : Form) (a b : Nat) (c : Int) : (assemble f a b c).form = f := by
  cases f <;> rfl

/-- The instruction of the selected form encodes to the operands it was selected by (R50, R51). -/
theorem encode_assemble (a b : Nat) (c : Int) : encode (assemble (selectForm a b) a b c) = ⟨a, b, c⟩ := by
  obtain ⟨rfl, e⟩ | ⟨-, rfl, e⟩ | ⟨-, rfl, e⟩ | ⟨-, -, -, e⟩ := selectForm_cases a b
  all_goals
    rw [e]
    rfl

/-- The instruction of the selected form is well-formed when the operands lie inside memory (R55). -/
theorem wellFormed_assemble (ha : a < memSize) (hb : b < memSize) (c : Int) :
    (assemble (selectForm a b) a b c).wellFormed = true := by
  obtain ⟨-, e⟩ | ⟨hbIO, -, e⟩ | ⟨hbIO, -, e⟩ | ⟨hbIO, haIO, haIRQ, e⟩ := selectForm_cases a b
  all_goals rw [e]
  · exact wellFormed_out.2 ha
  · exact wellFormed_inp.2 ⟨hb, hbIO⟩
  · exact wellFormed_irq.2 ⟨hb, hbIO⟩
  · exact wellFormed_subleq.2 ⟨ha, hb, hbIO, haIO, haIRQ⟩

/-- Operands inside memory pass the range checks (R56). -/
theorem decode_of_inside (ha : a < memSize) (hb : b < memSize) (c : Int) :
    decode ⟨a, b, c⟩ = .ok (assemble (selectForm a b) a b c) := by
  have ha' : (a : Int) < 16777216 := Int.ofNat_lt.2 ha
  have hb' : (b : Int) < 16777216 := Int.ofNat_lt.2 hb
  obtain ⟨h, -⟩ | ⟨-, h, -⟩ | ⟨h, -⟩ | ⟨-, -, h, -⟩ | ⟨-, -, -, -, e⟩ := decode_cases ⟨a, b, c⟩
  case inr.inr.inr.inr => exact e
  all_goals
    dsimp only at h
    omega

/-- What the decoder accepts: operands inside memory, and the answer is the instruction of the selected form. -/
theorem eq_assemble_of_decode {t : Triple} {i : Instr} (h : decode t = .ok i) :
    ∃ a b : Nat, a < memSize ∧ b < memSize ∧ t = ⟨a, b, t.c⟩ ∧ i = assemble (selectForm a b) a b t.c := by
  obtain ⟨x, y, c⟩ := t
  obtain ⟨⟨hx, hx'⟩, hy, hy'⟩ := decode_ok_iff.1 ⟨i, h⟩
  lift x to Nat using hx
  lift y to Nat using hy
  have ha : x < memSize := Int.ofNat_lt.1 hx'
  have hb : y < memSize := Int.ofNat_lt.1 hy'
  rw [decode_of_inside ha hb] at h
  exact ⟨x, y, ha, hb, rfl, (Except.ok.inj h).symm⟩

/-! ## Both directions, and what is rejected -/

/-- Settles O1: the sentinels `encode` writes, and the operands a well-formed instruction keeps, select its form. -/
theorem decodeOfEncodeIsIdentity : Obligations.DecodeOfEncodeIsIdentity := by
  intro i hwf
  have hIO : sentIO < memSize := by decide
  have hIRQ : sentIRQ < memSize := by decide
  cases i with
  | out a c =>
    refine (decode_of_inside (wellFormed_out.1 hwf) hIO c).trans ?_
    rw [selectForm_out, assemble]
  | inp b c =>
    obtain ⟨hb, hbIO⟩ := wellFormed_inp.1 hwf
    refine (decode_of_inside hIO hb c).trans ?_
    rw [selectForm_inp hbIO, assemble]
  | irq b c =>
    obtain ⟨hb, hbIO⟩ := wellFormed_irq.1 hwf
    refine (decode_of_inside hIRQ hb c).trans ?_
    rw [selectForm_irq hbIO, assemble]
  | subleq a b c =>
    obtain ⟨ha, hb, hbIO, haIO, haIRQ⟩ := wellFormed_subleq.1 hwf
    refine (decode_of_inside ha hb c).trans ?_
    rw [selectForm_subleq hbIO haIO haIRQ, assemble]

/-- Settles O2: the answer is the instruction of the selected form, and `encode` undoes `assemble`. -/
theorem encodeOfDecodeIsIdentity : Obligations.EncodeOfDecodeIsIdentity := by
  intro t i h
  obtain ⟨a, b, ha, hb, ht, rfl⟩ := eq_assemble_of_decode h
  exact ⟨wellFormed_assemble ha hb t.c, (encode_assemble a b t.c).trans ht.symm⟩

/-- Settles O5: the decoder's answers, one by one. -/
theorem onlyOutOfRangeOperandsAreRejected : Obligations.OnlyOutOfRangeOperandsAreRejected := by
  intro t
  obtain ⟨ha, e⟩ | ⟨ha, hb, e⟩ | ⟨ha, hb, e⟩ | ⟨ha, ha', hb, e⟩ | ⟨ha, ha', hb, hb', e⟩ := decode_cases t
  all_goals
    rw [e]
    simp only [Except.error.injEq, exists_eq', reduceCtorEq, exists_false, implies_true, true_and, and_true, true_iff,
      false_iff]
    omega

end Sys2Proof.Machine
end

section
/-! The opcode table's 72-bit words (R52, R53): their fields, the table's masks on them, and their triples. -/

namespace Sys2Proof.Machine

variable {a b w : Nat} {c : Int}

/-! ## The table's masks -/

/-- A word under the mask of the field that starts at bit `lo` is that field, left in its place. -/
theorem and_fieldMask (w lo : Nat) : w &&& (2 ^ 24 - 1) * 2 ^ lo = wordField w lo * 2 ^ lo := by
  refine Nat.eq_of_testBit_eq fun i => ?_
  have hfield : wordField w lo = w / 2 ^ lo % 2 ^ 24 := rfl
  simp only [hfield, Nat.testBit_and, Nat.testBit_mul_two_pow, Nat.testBit_two_pow_sub_one, Nat.testBit_mod_two_pow,
    Nat.testBit_div_two_pow]
  by_cases h : lo ≤ i
  · simp [h, Bool.and_comm]
  · simp [h]

/-- A row of the table that tests one field against a value matches the words with that value in the field (R53). -/
theorem and_fieldMask_eq_iff (w lo v : Nat) :
    w &&& (2 ^ 24 - 1) * 2 ^ lo = v * 2 ^ lo ↔ wordField w lo = v := by
  rw [and_fieldMask]
  exact Nat.mul_left_inj (Nat.two_pow_pos lo).ne'

/-- The opcode table makes the priority test of R53 on the word's fields `a` and `b`. -/
theorem firstMatch_opcodeTable (w : Nat) :
    firstMatch w opcodeTable = some (selectForm (wordField w 48) (wordField w 24)) := by
  have hout : w &&& 0x000000FFFFFF000000 = 0x000000FFFFFF000000 ↔ _ := and_fieldMask_eq_iff w 24 sentIO
  have hinp : w &&& 0xFFFFFF000000000000 = 0xFFFFFF000000000000 ↔ _ := and_fieldMask_eq_iff w 48 sentIO
  have hirq : w &&& 0xFFFFFF000000000000 = 0xFFFFFE000000000000 ↔ _ := and_fieldMask_eq_iff w 48 sentIRQ
  simp only [opcodeTable, firstMatch, hout, hinp, hirq, Nat.and_zero, if_true]
  unfold selectForm
  split_ifs <;> rfl

/-! ## The word of a triple and the triple of a word -/

theorem wordField_tableWordOfTriple (ha : a < memSize) (hb : b < memSize) (c : Int) :
    wordField (tableWordOfTriple ⟨a, b, c⟩) 48 = a ∧ wordField (tableWordOfTriple ⟨a, b, c⟩) 24 = b := by
  simp only [wordField, tableWordOfTriple, memSize, Nat.cast_ofNat] at *
  omega

theorem tripleOfTableWord_eq (h : w < 2 ^ 72) :
    tripleOfTableWord 72 w = ⟨wordField w 48, wordField w 24, wordField w 0⟩ := by
  rw [tripleOfTableWord, Nat.mod_eq_of_lt h]

theorem tableWordOfTriple_fields (h : w < 2 ^ 72) :
    tableWordOfTriple ⟨wordField w 48, wordField w 24, wordField w 0⟩ = w := by
  simp only [wordField, tableWordOfTriple, memSize, Nat.cast_ofNat]
  omega

theorem wordField_lt (w lo : Nat) : wordField w lo < memSize := Nat.mod_lt _ (by decide)

/-- Every table word decodes to the instruction its fields select (R52, R56). -/
theorem decodeTableWord_eq (h : w < 2 ^ 72) :
    decodeTableWord 72 w =
      some (assemble (selectForm (wordField w 48) (wordField w 24)) (wordField w 48) (wordField w 24)
        (wordField w 0)) := by
  rw [decodeTableWord, tripleOfTableWord_eq h, decode_of_inside (wordField_lt w 48) (wordField_lt w 24)]

/-! ## The statements about the form and the table words -/

/-- R53's conditions on whole cell values name the instruction of the selected form. -/
theorem assemble_selectForm_eq_ite (a b : Nat) (c : Int) :
    assemble (selectForm a b) a b c =
      if (b : Int) = 0xFFFFFF then .out a c
      else if (a : Int) = 0xFFFFFF then .inp b c
      else if (a : Int) = 0xFFFFFE then .irq b c
      else .subleq a b c := by
  have hIO (n : Nat) : (n : Int) = 0xFFFFFF ↔ n = sentIO := Int.ofNat_inj (n := sentIO)
  have hIRQ (n : Nat) : (n : Int) = 0xFFFFFE ↔ n = sentIRQ := Int.ofNat_inj (n := sentIRQ)
  simp only [hIO, hIRQ]
  unfold selectForm
  split_ifs <;> rfl

/-- Settles O3: the conditions and the table both make the test of `selectForm`. -/
theorem formChosenByPriority : Obligations.FormChosenByPriority := by
  intro a b c ha ha' hb hb'
  lift a to Nat using ha
  lift b to Nat using hb
  have ha : a < memSize := Int.ofNat_lt.1 ha'
  have hb : b < memSize := Int.ofNat_lt.1 hb'
  obtain ⟨hfieldA, hfieldB⟩ := wordField_tableWordOfTriple ha hb c
  refine ⟨_, decode_of_inside ha hb c, assemble_selectForm_eq_ite a b c, ?_, rfl⟩
  rw [firstMatch_opcodeTable, hfieldA, hfieldB, form_assemble]

/-- Settles O4: a word's fields select the instruction, encode back, and make up the word. -/
theorem tableWordsDecodeAndEncodeBack : Obligations.TableWordsDecodeAndEncodeBack := by
  intro w h
  refine ⟨_, decodeTableWord_eq h, ?_, ?_⟩
  · rw [firstMatch_opcodeTable, form_assemble]
  · rw [encode_assemble, tableWordOfTriple_fields h]

/-- Settles O6, by evaluating the decoder on the six words. -/
theorem writtenOutWordsDecode : Obligations.WrittenOutWordsDecode := by
  unfold Obligations.WrittenOutWordsDecode
  decide

end Sys2Proof.Machine
end

section
/-! The launch of an image text (R60, R141): each token's value is a value of the image, and each value of the image is
the cell it is listed for. -/

namespace Sys2Proof.Machine

variable {cfg : Config} {text : List Char} {image : List Int} {s : State}

/-- The cell `value` is the hexadecimal numeral that the token `tok` is (R60). -/
def tokenDenotes (tok : List Char) (value : Int) : Prop := ∃ v : Nat, hexValue 0 tok = some v ∧ value = v

/-- A list of tokens that is not refused gives one value for each token, in order. -/
theorem tokenValues_ok {toks : List (List Char)} (h : tokenValues toks = .ok image) :
    List.Forall₂ tokenDenotes toks image := by
  induction toks generalizing image with
  | nil =>
    cases h
    exact .nil
  | cons tok rest ih =>
    rw [tokenValues] at h
    split at h
    next v vs hv hvs =>
      cases h
      exact .cons ⟨v, hv, rfl⟩ (ih hvs)
    all_goals cases h

/-- A launch that is not refused boots the values of the text's tokens. -/
theorem launch_ok (h : launch cfg text = .ok s) :
    ∃ image, List.Forall₂ tokenDenotes (splitTokens [] (afterHeader text)) image ∧ boot cfg image = .ok s := by
  unfold launch at h
  split at h
  next image hparse =>
    unfold parseImage at hparse
    split at hparse
    · cases hparse
    · exact ⟨image, tokenValues_ok hparse, h⟩
  · cases h

/-- Memory written with an image from address `k` on holds the image there (R141). -/
theorem read_imageMemory {k j : Nat} (h : k + image.length ≤ memSize) (hj : j < image.length) :
    Memory.read cfg (imageMemory cfg k image) (k + j) = image[j] := by
  induction image generalizing k j with
  | nil => cases hj
  | cons v vs ih =>
    rw [List.length_cons] at h hj
    rw [imageMemory]
    cases j with
    | zero => exact read_entry_append_same (wfFrom_imageMemory cfg (k + 1) vs (by omega))
    | succ j =>
      rw [read_entry_append_other (by omega), ← Nat.add_assoc, Nat.add_right_comm]
      exact ih (by omega) (by omega)

/-- After a boot that is not refused, cell `k` holds value `k` of the image (R141). -/
theorem boot_cell (h : boot cfg image = .ok s) {k : Nat} (hk : k < image.length) : s.cell k = image[k] := by
  obtain ⟨⟨-, htable, -⟩, hlen, -, rfl⟩ := boot_ok h
  have hread := read_imageMemory (cfg := cfg) (k := 0) (by omega) hk
  rwa [Nat.zero_add] at hread

/-- Settles O12: token `k` denotes value `k` of the image, which the boot puts into cell `k`. -/
theorem imageTokensBecomeCells : Obligations.ImageTokensBecomeCells := by
  intro cfg text s h k hk
  obtain ⟨image, htokens, hboot⟩ := launch_ok h
  have hk' : k < image.length := htokens.length_eq ▸ hk
  obtain ⟨v, hv, hcell⟩ := htokens.get hk hk'
  exact ⟨v, hv, (boot_cell hboot hk').trans hcell⟩

end Sys2Proof.Machine
end

section
/-! How a cycle ends (R65): the ways an instruction leaves `run` and `pc`, the precise fault, the only way to halt, that a
running machine is not stuck, and which cycles get past the fetch (R68). -/

namespace Sys2Proof.Machine

variable {s t : State} {i : Instr} {triple : Triple}

/-! ## Performing an instruction -/

theorem engineCycle_of_issue (hi : issue s = .ok i) : engineCycle s = exec i s := by
  rw [engineCycle, hi]

/-- What the decoder accepts has a meaning in every state (R72, R75). -/
theorem exec_of_decode (hd : decode triple = .ok i) (s : State) : ∃ t, exec i s = .next t := by
  obtain ⟨hreads, hstore⟩ := decode_operands_inside hd
  cases i with
  | out a c => exact ⟨_, exec_out (hreads a (by simp [operandReads])) c s⟩
  | inp b c => exact ⟨_, exec_inp (hstore b rfl) c s⟩
  | irq b c => exact ⟨_, exec_irq (hstore b rfl) c s⟩
  | subleq a b c => exact ⟨_, exec_subleq (hreads a (by simp [operandReads])) (hstore b rfl) c s⟩

/-- An instruction halts in place, goes on to the next triple, or jumps; SUBLEQ decides by its result (R83 to R85). -/
theorem exec_run_pc (h : exec i s = .next t) :
    (t.run = .halted ∧ t.pc = s.pc ∧ ∃ a b, i = .subleq a b 0xFFFFFF ∧ subWrapped (s.cell b) (s.cell a) ≤ 0) ∨
    (t.run = s.run ∧ t.pc = s.pc + 3 ∧ ∀ a b c, i = .subleq a b c → 0 < subWrapped (s.cell b) (s.cell a)) ∨
    (t.run = s.run ∧ ∃ a b c, i = .subleq a b c ∧ c ≠ 0xFFFFFF ∧ subWrapped (s.cell b) (s.cell a) ≤ 0 ∧ t.pc = c) := by
  obtain ⟨a, c, rfl, -, rfl⟩ | ⟨b, c, rfl, -, rfl⟩ | ⟨b, c, rfl, -, rfl⟩ | ⟨a, b, c, rfl, -, -, rfl⟩ := exec_next h
  · exact .inr (.inl (by simp))
  · exact .inr (.inl (by simp))
  · exact .inr (.inl (by simp))
  · obtain ⟨hr, rfl, e⟩ | ⟨hr, hc, e⟩ | ⟨hr, e⟩ := branch_cases (subWrapped (s.cell b) (s.cell a)) c
      (storeCell b (subWrapped (s.cell b) (s.cell a)) s) <;> rw [e]
    · exact .inl ⟨rfl, by simp, a, b, rfl, hr⟩
    · exact .inr (.inr ⟨by simp, a, b, c, rfl, hc, hr, rfl⟩)
    · exact .inr (.inl ⟨by simp, by simp, fun a' b' c' he => by cases he; exact hr⟩)

/-- Settles O25: the checks pass and the decoder gives the instruction, so the cycle is its meaning. -/
theorem stepRunsDecodedInstruction : Obligations.StepRunsDecodedInstruction := by
  intro s i hnext ht h0 h1 hd
  have hi : issue (dropTurn s) = .ok i := issue_eq_ok_iff.2 ⟨⟨ht, h0, h1⟩, hd⟩
  exact (step_engine hnext.1 hnext.2).trans (engineCycle_of_issue hi)

/-! ## The ends of a step -/

/-- Settles O31: by what ends the cycle, the terminate check, a fault, or one of the ways of an instruction. -/
theorem cycleEndsInOneOfFiveWays : Obligations.CycleEndsInOneOfFiveWays := by
  intro s t hnext h
  rw [step_engine hnext.1 hnext.2] at h
  obtain ⟨ht, rfl⟩ | ⟨ht, cause, hc, rfl⟩ | ⟨-, -, -, i, -, hi, he⟩ := engineCycle_next h
  · exact .inl ⟨rfl, rfl, ht⟩
  · exact .inr (.inl ⟨rfl, rfl, hc, ht⟩)
  have hp : performs s i := ⟨hnext, hi⟩
  obtain ⟨hrun, hpc, a, b, rfl, hr⟩ | ⟨hrun, hpc, hr⟩ | ⟨hrun, a, b, c, rfl, hc, hr, hpc⟩ := exec_run_pc he
  · exact .inr (.inr (.inl ⟨hrun, hpc, a, b, hp, hr⟩))
  · exact .inr (.inr (.inr (.inl ⟨hrun.trans hnext.1, hpc, i, hp, hr⟩)))
  · exact .inr (.inr (.inr (.inr ⟨hrun.trans hnext.1, a, b, c, hp, hc, hr, hpc⟩)))

/-- A step that ends the run is an engine cycle: a push leaves `run` alone (R100). -/
theorem engineNext_of_run_ended (h : step s = .next t) (hrun : t.run ≠ .running) : engineNext s := by
  obtain ⟨hr, ⟨byte, -, rfl⟩ | ⟨hn, -⟩⟩ := step_next h
  · exact absurd (by simpa using hr) hrun
  · exact ⟨hr, hn⟩

/-- Settles O41: of the five ways a cycle ends, one leaves the machine halted. -/
theorem haltOnlyByTakenSubleq : Obligations.HaltOnlyByTakenSubleq := by
  intro s t h hrun
  have hnext : engineNext s := engineNext_of_run_ended h (by simp [hrun])
  obtain ⟨hrun', -⟩ | ⟨hrun', -⟩ | ⟨-, -, hhalt⟩ | ⟨hrun', -⟩ | ⟨hrun', -⟩ := cycleEndsInOneOfFiveWays s t hnext h
  case inr.inr.inl => exact hhalt
  all_goals simp [hrun'] at hrun

/-- Settles O30: no instruction leaves the machine faulted, and a cycle that performs none does so by `raiseFault`. -/
theorem faultsArePrecise : Obligations.FaultsArePrecise := by
  intro s t h hrun
  have hnext : engineNext s := engineNext_of_run_ended h (by simp [hrun])
  rw [step_engine hnext.1 hnext.2] at h
  obtain ⟨-, rfl⟩ | ⟨-, cause, hc, rfl⟩ | ⟨-, -, -, i, -, -, he⟩ := engineCycle_next h
  · simp at hrun
  · exact ⟨rfl, hc⟩
  · obtain ⟨hrun', -⟩ | ⟨hrun', -⟩ | ⟨hrun', -⟩ := exec_run_pc he <;> simp [hrun', hnext.1] at hrun

/-! ## A running machine is not stuck -/

/-- A rejected triple raises a fault, or is refused for a negative operand (R70, R71). -/
theorem rejected_of_decode {r : Reject} (hd : decode triple = .error r) (s : State) :
    (∃ t, rejected r s = .next t) ∨
      (s.cfg.negOperandFault = false ∧ (∃ q, rejected r s = .refused q) ∧ (triple.a < 0 ∨ triple.b < 0)) := by
  obtain ⟨cause, -, e⟩ | ⟨hneg, hrefused⟩ := rejected_cases r s
  · exact .inl ⟨_, e⟩
  have hq : ∃ q, rejected r s = .refused q := hrefused.elim (fun e => ⟨_, e⟩) (fun e => ⟨_, e⟩)
  obtain ⟨-, e⟩ | ⟨-, -, e⟩ | ⟨ha, -, -⟩ | ⟨-, -, hb, -⟩ | ⟨-, -, -, -, e⟩ := decode_cases triple
  · cases hd.symm.trans e
    exact .inl ⟨_, rfl⟩
  · cases hd.symm.trans e
    exact .inl ⟨_, rfl⟩
  · exact .inr ⟨hneg, hq, .inl ha⟩
  · exact .inr ⟨hneg, hq, .inr hb⟩
  · cases hd.symm.trans e

/-- A cycle gives a next state, or is refused for a negative operand (R71, R75). -/
theorem engineCycle_next_or_refused (s : State) :
    (∃ t, engineCycle s = .next t) ∨
      (s.cfg.negOperandFault = false ∧ (∃ q, engineCycle s = .refused q) ∧
        (s.cell s.pc.toNat < 0 ∨ s.cell (s.pc.toNat + 1) < 0)) := by
  unfold engineCycle
  obtain ⟨-, e⟩ | ⟨-, -, e⟩ | ⟨-, -, e⟩ | ⟨-, -, -, ⟨i, hd, e⟩ | ⟨r, hd, e⟩⟩ := issue_cases s <;> rw [e]
  · exact .inl ⟨_, rfl⟩
  · exact .inl ⟨_, rfl⟩
  · exact .inl ⟨_, rfl⟩
  · exact .inl (exec_of_decode hd s)
  · exact rejected_of_decode hd s

/-- Settles O32: a push always gives a next state, a cycle unless it is refused. -/
theorem runningMachineIsNeverStuck : Obligations.RunningMachineIsNeverStuck := by
  intro s hr
  cases hn : nextTurn s with
  | engine =>
    rw [step_engine hr hn]
    exact engineCycle_next_or_refused (dropTurn s)
  | capture byte => exact .inl ⟨_, step_capture hr hn⟩

/-! ## The fetch's range -/

theorem issue_fetchRange (ht : s.term = false) (hpc : s.pc = 16777214 ∨ s.pc = 16777215) :
    issue s = .error (.next (raiseFault .fetchRange s)) := by
  obtain ⟨hterm, -⟩ | ⟨-, _, -⟩ | ⟨-, -, e⟩ | ⟨-, -, _, -⟩ := issue_cases s
  · simp [ht] at hterm
  · omega
  · exact e
  · omega

/-- A cycle that gets to its fetch reads the triple first (R38, R39). -/
theorem cycleAccesses_fetched (hf : fetches s) :
    ∃ more, cycleAccesses s = (fetchReads s).map Access.read ++ more := by
  cases hd : decode (fetch s) with
  | ok i => exact ⟨_, cycleAccesses_performed (issue_eq_ok_iff.2 ⟨hf, hd⟩)⟩
  | error r => exact ⟨[], by rw [cycleAccesses_rejected hf hd, List.append_nil]⟩

theorem cycleAccesses_ne_nil_iff : cycleAccesses s ≠ [] ↔ fetches s := by
  constructor
  · exact fun h => by_contra fun hf => h (cycleAccesses_unfetched hf)
  · intro hf
    obtain ⟨more, e⟩ := cycleAccesses_fetched hf
    simp [e, fetchReads]

/-- Settles O27: a cycle accesses memory exactly when it gets to its fetch. -/
theorem fetchRangeFault : Obligations.FetchRangeFault := by
  intro s hnext ht
  refine ⟨fun hpc => ⟨?_, cycleAccesses_unfetched ?_⟩, ?_, fun h0 h1 => ?_⟩
  · rw [step_engine hnext.1 hnext.2, engineCycle, issue_fetchRange (s := dropTurn s) ht hpc]
    rfl
  · rintro ⟨-, -, h1⟩
    omega
  · rw [cycleAccesses_ne_nil_iff]
    exact ⟨fun hpc => ⟨ht, hpc⟩, fun ⟨_, hpc⟩ => hpc⟩
  · obtain ⟨more, e⟩ := cycleAccesses_fetched ⟨ht, h0, h1⟩
    rw [e]
    rfl

end Sys2Proof.Machine
end

section
/-! The engine reads neither `cnt` nor `out` (R18, R76). Giving a state another `cnt` and putting bytes before its `out`
commutes with a cycle, and every state arises so from the one whose `out` is empty. -/

namespace Sys2Proof.Machine

variable {s : State} {n : Nat} {o : List Byte} {addr : Nat} {v : Int}

/-- The state with another `cnt`, and with its output behind the bytes `o`. -/
def recount (n : Nat) (o : List Byte) (s : State) : State := { s with cnt := n, out := o ++ s.out }

theorem recount_of_out_nil (n : Nat) (o : List Byte) (s : State) :
    recount n o { s with out := [] } = { s with cnt := n, out := o } := by
  simp [recount]

/-! ## The memory primitives under an update of the state -/

theorem memRead_map {f : State → State} {k k' : Int → Result} (hcell : (f s).cell addr = s.cell addr)
    (hk : ∀ v, k' v = mapNext f (k v)) : memRead addr (f s) k' = mapNext f (memRead addr s k) := by
  unfold memRead
  split
  · rw [hcell, hk]
  · rfl

theorem memWrite_map {f : State → State} {k k' : State → Result}
    (hstore : storeCell addr v (f s) = f (storeCell addr v s)) (hk : ∀ u, k' (f u) = mapNext f (k u)) :
    memWrite addr v (f s) k' = mapNext f (memWrite addr v s k) := by
  unfold memWrite
  split
  · rw [hstore, hk]
  · rfl

/-! ## The engine cycle -/

theorem storeCell_recount : storeCell addr v (recount n o s) = recount n o (storeCell addr v s) := by
  rw [storeCell_eq, storeCell_eq]
  rfl

theorem branch_recount (r c : Int) : branch r c (recount n o s) = recount n o (branch r c s) := by
  rw [branch_eq, branch_eq]
  rfl

/-- What is emitted goes behind the output so far, whatever that is (R20). -/
theorem emit_recount (byte : Byte) : emit byte (recount n o s) = recount n o (emit byte s) := by
  simp [emit, recount]

theorem pop_recount (n : Nat) (o : List Byte) (s : State) :
    pop (recount n o s) = ((pop s).1, recount n o (pop s).2) := by
  obtain ⟨h, e⟩ | ⟨h, e⟩ := pop_cases s
  · rw [e]
    exact if_pos h
  · rw [e]
    exact if_neg h

theorem exec_recount (i : Instr) (n : Nat) (o : List Byte) (s : State) :
    exec i (recount n o s) = mapNext (recount n o) (exec i s) := by
  cases i with
  | out a c =>
    simp only [exec, execOut]
    exact memRead_map rfl fun v => congrArg (Host.Outcome.next ∘ advance) (emit_recount (lo8 v))
  | inp b c =>
    have hpop : pop (clearIrq (recount n o s)) = ((pop (clearIrq s)).1, recount n o (pop (clearIrq s)).2) :=
      pop_recount n o (clearIrq s)
    simp only [exec, execInp, hpop]
    exact memWrite_map storeCell_recount fun u => rfl
  | irq b c =>
    simp only [exec, execIrq]
    exact memWrite_map storeCell_recount fun u => rfl
  | subleq a b c =>
    simp only [exec, execSubleq]
    exact memRead_map rfl fun x => memRead_map rfl fun y => memWrite_map storeCell_recount fun u =>
      congrArg Host.Outcome.next (branch_recount _ c)

theorem engineCycle_recount (n : Nat) (o : List Byte) (s : State) :
    engineCycle (recount n o s) = mapNext (recount n o) (engineCycle s) := by
  have hissue : issue (recount n o s) = (issue s).mapError (mapNext (recount n o)) :=
    issue_map rfl (fun _ => rfl) rfl rfl rfl fun _ => rfl
  unfold engineCycle
  rw [hissue]
  cases issue s with
  | ok i => exact exec_recount i n o s
  | error ended => rfl

theorem eq_next_of_mapNext_eq_next {f : State → State} {answer : Result} {t : State}
    (h : mapNext f answer = .next t) : ∃ u, answer = .next u ∧ t = f u := by
  cases answer with
  | next u => exact ⟨u, rfl, by cases h; rfl⟩
  | fault r => cases h
  | refused r => cases h

/-- Settles O35: both cycles do what the cycle from the empty output does; its output is what they emit. -/
theorem cycleIgnoresCounterAndOutput : Obligations.CycleIgnoresCounterAndOutput := by
  intro s t n o h
  have hs : recount s.cnt s.out { s with out := [] } = s := recount_of_out_nil s.cnt s.out s
  rw [← hs, engineCycle_recount] at h
  obtain ⟨u, hu, rfl⟩ := eq_next_of_mapNext_eq_next h
  refine ⟨u.out, rfl, ?_⟩
  rw [← recount_of_out_nil, engineCycle_recount, hu]
  rfl

end Sys2Proof.Machine
end

section
/-! The subtractor (R80, R81): its result is the one value of 24-bit two's complement that is congruent to the
difference, and its laws follow from that. -/

namespace Sys2Proof.Machine

/-- The range and the congruence determine the result (R81). -/
theorem subWrapped_eq_iff {x y r : Int} :
    subWrapped x y = r ↔ (-8388608 ≤ r ∧ r ≤ 8388607) ∧ (x - y - r) % 16777216 = 0 := by
  have hrange := subWrapped_range x y
  have hcongr := subWrapped_congr x y
  constructor
  · rintro rfl
    exact ⟨hrange, hcongr⟩
  · omega

/-- Equal operands leave zero (R81). -/
@[simp] theorem subWrapped_self (x : Int) : subWrapped x x = 0 :=
  subWrapped_eq_iff.2 ⟨by decide, by simp⟩

/-- Settles O14: each law says which value has the range and the congruence. -/
theorem subtractorLaws : Obligations.SubtractorLaws := by
  intro x y
  have hrange := subWrapped_range x y
  have hcongr := subWrapped_congr x y
  refine ⟨by omega, subWrapped_eq_iff.2 ⟨subWrapped_range _ _, ?_⟩, hcongr, ?_, subWrapped_self x, ?_⟩
  · have hlow := subWrapped_congr (x % 2 ^ 24) (y % 2 ^ 24)
    omega
  · rw [subWrapped_eq_iff]
    omega
  · rw [subWrapped_eq_iff]
    omega

/-- Settles O13: the balanced modulus of a bit vector's value has the range and the congruence. -/
theorem subtractorIs24BitTwosComplement : Obligations.SubtractorIs24BitTwosComplement := by
  refine ⟨fun x y => ?_, by decide, by decide, by decide⟩
  have hvalue : (BitVec.ofInt 24 x - BitVec.ofInt 24 y).toInt = (x - y).bmod 16777216 := by
    simp [BitVec.toInt_sub, BitVec.toInt_ofInt]
  have hlow : -8388608 ≤ (x - y).bmod 16777216 := Int.le_bmod (by decide)
  have hhigh : (x - y).bmod 16777216 < 8388608 := Int.bmod_lt (by decide)
  have hcongr : (x - y).bmod 16777216 % 16777216 = (x - y) % 16777216 := Int.bmod_emod
  rw [hvalue, subWrapped_eq_iff]
  omega

end Sys2Proof.Machine
end

section
/-! SUBLEQ (R82 to R87) and the step that performs an instruction: the result, the store, the branch, and `pc + 3`. -/

namespace Sys2Proof.Machine

variable {s t : State} {i : Instr} {a b : Nat} {c : Int}

/-! ## SUBLEQ -/

/-- Settles O16: the branch multiplexer's update of the state that the store of the subtractor's result leaves. -/
theorem subleqResult : Obligations.SubleqResult := by
  intro s a b c hwf hm
  obtain ⟨ha, hb, -⟩ := wellFormed_subleq.1 hwf
  obtain ⟨hlow, hhigh⟩ := subWrapped_range (s.cell b) (s.cell a)
  refine ⟨subWrapped (s.cell b) (s.cell a), (storeCell b (subWrapped (s.cell b) (s.cell a)) s).mem, ?_, hlow, hhigh,
    subWrapped_congr _ _, fun x => ?_⟩
  · rw [exec_subleq ha hb, branch_eq, storeCell_eq]
  have hcell := storeCell_cell (addr := b) (x := x) (v := subWrapped (s.cell b) (s.cell a)) hm
  rw [State.cell, storeCell_cfg] at hcell
  simpa only [writeDiscarded_eq_false_iff] using hcell

/-- SUBLEQ leaves in `b` the result or, where the store is discarded, what was there (R35, R82). -/
theorem exec_subleq_cell (hm : Memory.wf s.cfg s.mem = true) (h : exec (.subleq a b c) s = .next t) :
    t.cell b = if s.cfg.writeProtect = true ∧ s.cfg.tableBase ≤ b then s.cell b
      else subWrapped (s.cell b) (s.cell a) := by
  have hcell := instructionMemoryFrame _ s t hm h b
  simp only [storeTarget, storeValue, true_and, ite_not] at hcell
  exact hcell

/-- A taken branch goes to `c`, or halts in place where `c` is the sentinel, wherever the store goes (R84). -/
theorem exec_subleq_taken (h : exec (.subleq a b c) s = .next t) (hr : subWrapped (s.cell b) (s.cell a) ≤ 0) :
    t.pc = (if c = 16777215 then s.pc else c) ∧ t.run = if c = 16777215 then .halted else s.run := by
  obtain ⟨hrun, hpc, _, _, ⟨⟩, -⟩ | ⟨-, -, hpos⟩ | ⟨hrun, _, _, _, ⟨⟩, hc, -, hpc⟩ := exec_run_pc h
  · exact ⟨hpc, hrun⟩
  · exact absurd (hpos a b c rfl) (not_lt.2 hr)
  · rw [if_neg hc, if_neg hc]
    exact ⟨hpc, hrun⟩

/-- Settles O24: equal operands leave zero, so the branch is taken whatever the cell holds. -/
theorem selfSubtractionClearsAndBranches : Obligations.SelfSubtractionClearsAndBranches := by
  intro s a c hwf hm
  obtain ⟨ha, -⟩ := wellFormed_subleq.1 hwf
  have h := exec_subleq ha ha c s
  obtain ⟨hpc, hrun⟩ := exec_subleq_taken h (subWrapped_self (s.cell a)).le
  exact ⟨_, h, by simpa using exec_subleq_cell hm h, hpc, fun hc => hrun.trans (if_pos hc)⟩

/-! ## The step that performs an instruction -/

/-- A step that performs an instruction is that instruction's meaning, and completes (R72, R75). -/
theorem step_of_performs (h : performs s i) :
    ∃ t, step s = .next t ∧ exec i (dropTurn s) = .next t := by
  obtain ⟨⟨hr, hn⟩, hi⟩ := h
  obtain ⟨-, hd⟩ := issue_eq_ok_iff.1 hi
  obtain ⟨t, ht⟩ := exec_of_decode hd (dropTurn s)
  exact ⟨t, (step_engine hr hn).trans ((engineCycle_of_issue hi).trans ht), ht⟩

/-- Settles O23: the cycle has fetched `c` before its store, so where `b` lies makes no difference to the branch. -/
theorem storeIntoOwnTripleActsOnNextFetch : Obligations.StoreIntoOwnTripleActsOnNextFetch := by
  intro s a b c hp hm _
  obtain ⟨t, hstep, h⟩ := step_of_performs hp
  obtain ⟨⟨hr, -⟩, hi⟩ := performs_iff.1 hp
  obtain ⟨-, hd⟩ := issue_eq_ok_iff.1 hi
  have hfetched : c = s.cell (s.pc.toNat + 2) := decode_subleq_target hd
  refine ⟨t, hstep, exec_subleq_cell (s := dropTurn s) hm h, fun hle hc => ?_, fun hle hc => ?_⟩
  · obtain ⟨hpc, hrun⟩ := exec_subleq_taken h hle
    exact ⟨(hpc.trans (if_neg hc)).trans hfetched, (hrun.trans (if_neg hc)).trans hr⟩
  · obtain ⟨hpc, hrun⟩ := exec_subleq_taken h hle
    exact ⟨hpc.trans (if_pos hc), hrun.trans (if_pos hc)⟩

/-- Settles O22: the instruction neither halts nor jumps, its triple lies inside memory, and it leaves `term` clear. -/
theorem sequencerAddsThreeWithoutWrap : Obligations.SequencerAddsThreeWithoutWrap := by
  intro s i hp hpos
  obtain ⟨t, hstep, h⟩ := step_of_performs hp
  obtain ⟨⟨hr, -⟩, hi⟩ := performs_iff.1 hp
  obtain ⟨⟨hterm, h0, h1⟩, -⟩ := issue_eq_ok_iff.1 hi
  obtain ⟨hpc, hrun⟩ : t.pc = s.pc + 3 ∧ t.run = .running := by
    obtain ⟨-, -, a, b, rfl, hle⟩ | ⟨hrun, hpc, -⟩ | ⟨-, a, b, c, rfl, -, hle, -⟩ := exec_run_pc h
    · exact absurd (hpos a b _ rfl) (not_lt.2 hle)
    · exact ⟨hpc, hrun.trans hr⟩
    · exact absurd (hpos a b c rfl) (not_lt.2 hle)
  obtain ⟨-, -, hterm', -⟩ := instructionRegisterFrame i _ t h
  refine ⟨t, hstep, hpc, by omega, by omega, hrun, fun hhigh hn => ?_⟩
  obtain ⟨cause, hfault⟩ := engineCycle_of_pc_high (s := dropTurn t) (hterm'.trans hterm) (by rw [dropTurn_pc]; omega)
  exact ⟨_, (step_engine hrun hn).trans hfault, rfl, rfl⟩

end Sys2Proof.Machine
end

section
/-! The sentinels (R88, R143): what a step can put in a cell. -/

namespace Sys2Proof.Machine

variable {s t : State}

/-- Every form presents a value below both sentinels, but for IN on an empty buffer, which presents the no-data value
(R88). -/
theorem storeValue_lt_sentIRQ_or_noData (i : Instr) (s : State) :
    storeValue i s < 16777214 ∨ (∃ b c, i = .inp b c) ∧ s.head = s.tail ∧ storeValue i s = 16777215 := by
  cases i with
  | out a c => exact .inl (by simp [storeValue])
  | inp b c =>
    obtain ⟨hempty, e⟩ | ⟨-, e⟩ := pop_cases s
    · exact .inr ⟨⟨b, c, rfl⟩, hempty, by simp [storeValue, e, inputCell, noData]⟩
    · obtain ⟨-, hle⟩ := zext8_range (s.buf.getD s.tail 0)
      simp only [storeValue, e, inputCell]
      omega
  | irq b c => exact .inl (by cases h : s.irq <;> simp [storeValue, h, flagCell])
  | subleq a b c =>
    obtain ⟨-, hle⟩ := subWrapped_range (s.cell b) (s.cell a)
    simp only [storeValue]
    omega

/-- A step leaves a cell alone, or performs an instruction that stores there the value it presents (R38). -/
theorem step_cell (hm : Memory.wf s.cfg s.mem = true) (h : step s = .next t) (x : Nat) :
    t.cell x = s.cell x ∨
      ∃ i, performs s i ∧ storeTarget i = some x ∧ t.cell x = storeValue i (dropTurn s) := by
  obtain ⟨i, hp, he⟩ | ⟨-, ⟨byte, -, rfl⟩ | ⟨-, rfl | ⟨cause, -, rfl⟩⟩⟩ := step_cases h
  · have hcell := exec_cell (s := dropTurn s) hm he x
    split_ifs at hcell with hlands
    · exact .inr ⟨i, hp, hlands.1, hcell⟩
    · exact .inl hcell
  all_goals exact .inl (by simp)

/-- Settles O39: a cell that changes takes a value below both sentinels, or the no-data value of an IN. -/
theorem sentinelsCannotBeComputed : Obligations.SentinelsCannotBeComputed := by
  intro s t x hinv h
  obtain hsame | ⟨i, hp, htarget, hcell⟩ := step_cell hinv.mem_ok h x
  · exact ⟨hsame.symm.trans, fun hx => .inl (hsame.symm.trans hx)⟩
  obtain hlt | ⟨⟨b, c, rfl⟩, hempty, hvalue⟩ := storeValue_lt_sentIRQ_or_noData i (dropTurn s)
  · exact ⟨fun hx => by omega, fun hx => by omega⟩
  · cases htarget
    exact ⟨fun hx => by omega, fun _ => .inr ⟨c, hp, hempty⟩⟩

end Sys2Proof.Machine
end

section
/-! Keystroke capture (R100 to R110): `push` clause by clause, `pop`, and the ring buffer as a queue: what it shows after
a push of each kind, after any series of pushes and pops within its bound, and after an overflow. -/

namespace Sys2Proof.Machine

variable {s : State} {byte : Byte} {bytes : List Byte}

/-! ## The clauses of `push` -/

theorem push_of_term (h : s.term = true) : push byte s = s := if_pos h

theorem push_int_over (ht : s.term = false) (hn : s.cfg.intThreshold < s.cnt + 1) :
    push intByte s = { s with irq := true, head := 0, tail := 0, cnt := s.cnt + 1, term := true } := by
  simpa [ht, hn] using push_cases intByte s

theorem push_int_under (ht : s.term = false) (hn : s.cnt + 1 ≤ s.cfg.intThreshold) :
    push intByte s = { s with
      irq := true, buf := s.buf.set 0 intByte, head := nextSlot s.cfg 0, tail := 0, cnt := s.cnt + 1 } := by
  simpa [ht, not_lt.2 hn] using push_cases intByte s

theorem push_ordinary (ht : s.term = false) (hb : byte ≠ intByte) :
    push byte s = { s with cnt := 0, buf := s.buf.set s.head byte, head := nextSlot s.cfg s.head } := by
  simpa [ht, hb] using push_cases byte s

/-- Settles O58: the first test of `push`. -/
theorem pushDiscardedWhenTerminating : Obligations.PushDiscardedWhenTerminating :=
  fun _ _ => push_of_term

/-- Settles O44: the four clauses of `push`, and the step that makes one. -/
theorem pushFollowsItsPseudocode : Obligations.PushFollowsItsPseudocode := by
  refine fun byte s => ⟨push_of_term, ?_, ?_, push_ordinary, step_capture⟩
  · rintro ht rfl hover
    exact push_int_over ht hover
  · rintro ht rfl hunder
    exact push_int_under ht hunder

/-- Settles O46: the step is the push, and a push writes none of the engine's fields. -/
theorem captureStepLeavesEngineState : Obligations.CaptureStepLeavesEngineState := fun _ _ hr hn =>
  ⟨_, step_capture hr hn, rfl, push_cfg, push_mem, push_pc, push_run, push_cause, push_out, push_turns⟩

/-! ## `pop` -/

/-- Settles O45: the two answers of `pop`, and IN as the one form that moves `tail`. -/
theorem popReturnsByteAtTail : Obligations.PopReturnsByteAtTail := by
  refine fun s => ⟨fun he => if_pos he, fun hne byte hbyte => ?_, fun i t => exec_tail⟩
  have hread : s.buf.getD s.tail 0 = byte := by simp [List.getD_eq_getElem?_getD, hbyte]
  rw [← hread]
  exact if_neg hne

/-! ## What the buffer shows after a push -/

@[simp] theorem visible_length (s : State) : (visible s).length = occupancy s := by
  simp [visible]

@[simp] theorem noteByte_cfg (byte : Byte) (s : State) : (noteByte byte s).cfg = s.cfg := by
  unfold noteByte
  split <;> rfl

/-- A push that is not discarded takes note of its byte, then appends it (R101). -/
theorem visible_push (h : s.Inv) (ht : s.term = false) (byte : Byte) :
    visible (push byte s) =
      if (noteByte byte s).term then visible (noteByte byte s)
      else if occupancy (noteByte byte s) + 1 < s.cfg.kbufCap then visible (noteByte byte s) ++ [byte]
      else [] := by
  obtain ⟨hh, htl, hlen⟩ := noteByte_cursors h byte
  rw [push, if_neg (by simp [ht]), visible_appendByte hh htl hlen, noteByte_cfg]

/-- An ordinary byte goes behind the visible ones, or empties the buffer where they fill it (R106, R109). -/
theorem visible_push_ordinary (h : s.Inv) (ht : s.term = false) (hb : byte ≠ intByte) :
    visible (push byte s) = if occupancy s + 1 < s.cfg.kbufCap then visible s ++ [byte] else [] := by
  have hnote : noteByte byte s = { s with cnt := 0 } := if_neg hb
  rw [visible_push h ht, hnote, if_neg (by simp [ht])]
  rfl

/-- An interrupt byte below the threshold is the only one visible (R103, R106, R110). -/
theorem visible_push_int_under (h : s.Inv) (ht : s.term = false) (hn : s.cnt < s.cfg.intThreshold) :
    visible (push intByte s) = [intByte] := by
  obtain ⟨-, -, hcap, -⟩ := h.cfg_ok
  have hempty : visible (noteByte intByte s) = [] := by simp [visible_noteByte]
  have hnone : occupancy (noteByte intByte s) = 0 := by rw [← visible_length, hempty, List.length_nil]
  have hterm : (noteByte intByte s).term = false := by simpa [noteByte, thresholdExceeded, ht] using hn
  rw [visible_push h ht, hempty, hnone, if_neg (by simp [hterm]), if_pos (by omega), List.nil_append]

/-- Settles O51: the interrupt byte empties the buffer first, and is appended unless it terminates. -/
theorem interruptDiscardsPendingInput : Obligations.InterruptDiscardsPendingInput := by
  intro s h ht
  rw [show (3 : Byte) = intByte from rfl]
  obtain hunder | hover := Nat.lt_or_ge s.cnt s.cfg.intThreshold
  · have e := push_int_under ht hunder
    exact ⟨by rw [e], fun _ => ⟨visible_push_int_under h ht hunder, by rw [e, ht]⟩, fun hover => by omega⟩
  · have e := push_int_over ht (Nat.lt_succ_of_le hover)
    exact ⟨by rw [e], fun hunder => by omega, fun _ => ⟨visible_of_head_eq_tail (by rw [e]), by rw [e]⟩⟩

/-! ## Series of pushes and pops -/

/-- An ordinary byte keeps a state legal, whether or not the machine still runs, and does not set `term` (R105). -/
theorem push_ordinary_inv (h : s.Inv) (ht : s.term = false) (hb : byte ≠ intByte) :
    (push byte s).Inv ∧ (push byte s).term = false := by
  rw [push_ordinary ht hb]
  exact ⟨{ h with
    buf_len := List.length_set.trans h.buf_len
    head_lt := nextSlot_lt h.cfg_ok s.head
    cnt_le := Nat.zero_le _
    term_iff := iff_of_false (by simp [ht]) (Nat.not_lt_zero _)
    term_empty := fun hterm => by simp [ht] at hterm }, ht⟩

theorem runFifo_pop (limit : Nat) (ops : List QueueOp) (q : List Byte) :
    runFifo limit (.pop :: ops) q = (runFifo limit ops q.tail).map fun r => (q.head? :: r.1, r.2) := by
  cases q <;> rfl

/-- Settles O49: each operation takes the buffer's visible content to the plain queue's next content, by induction on
the operations. -/
theorem ringBufferIsFifo : Obligations.RingBufferIsFifo := by
  intro ops
  induction ops with
  | nil =>
    intro s r _ _ _ hfifo
    cases hfifo
    exact ⟨rfl, rfl⟩
  | cons op ops ih =>
    intro s r h ht hord hfifo
    obtain ⟨hop, hops⟩ := Bool.and_eq_true_iff.1 hord
    cases op with
    | push byte =>
      have hb : byte ≠ intByte := of_decide_eq_true hop
      obtain ⟨hroom, hfifo⟩ := Option.ite_none_right_eq_some.1 hfifo
      obtain ⟨h', ht'⟩ := push_ordinary_inv h ht hb
      have hshown : visible (push byte s) = visible s ++ [byte] := by
        rw [visible_length] at hroom
        rw [visible_push_ordinary h ht hb, if_pos (by omega)]
      exact ih (push byte s) r h' ht' hops (by rw [push_cfg, hshown]; exact hfifo)
    | pop =>
      obtain ⟨hanswer, hshown⟩ := pop_visible h
      rw [runFifo_pop, ← hanswer, ← hshown] at hfifo
      obtain ⟨r', hfifo', rfl⟩ := Option.map_eq_some_iff.1 hfifo
      obtain ⟨hanswers, hleft⟩ :=
        ih (pop s).2 r' (pop_inv h) (by rw [pop_term, ht]) hops (by rw [pop_cfg]; exact hfifo')
      exact ⟨congrArg ((pop s).1 :: ·) hanswers, hleft⟩

theorem pushAll_concat (bytes : List Byte) (byte : Byte) (s : State) :
    pushAll (bytes ++ [byte]) s = push byte (pushAll bytes s) := by
  induction bytes generalizing s with
  | nil => rfl
  | cons first rest ih => exact ih (push first s)

@[simp] theorem pushAll_cfg (bytes : List Byte) (s : State) : (pushAll bytes s).cfg = s.cfg := by
  induction bytes generalizing s with
  | nil => rfl
  | cons first rest ih => exact (ih (push first s)).trans push_cfg

theorem pushAll_ordinary_inv (h : s.Inv) (ht : s.term = false) (hb : ∀ b ∈ bytes, b ≠ intByte) :
    (pushAll bytes s).Inv ∧ (pushAll bytes s).term = false := by
  induction bytes generalizing s with
  | nil => exact ⟨h, ht⟩
  | cons first rest ih =>
    obtain ⟨hfirst, hrest⟩ := List.forall_mem_cons.1 hb
    obtain ⟨h', ht'⟩ := push_ordinary_inv h ht hfirst
    exact ih h' ht' hrest

/-- The last `k mod capacity` of `k` bytes, with one byte more: that byte joins them, unless it makes the number a
multiple of the capacity (R109). -/
theorem drop_concat_mod (bytes : List Byte) (byte : Byte) {cap : Nat} (hcap : 0 < cap) :
    (bytes ++ [byte]).drop ((bytes ++ [byte]).length - (bytes ++ [byte]).length % cap) =
      if bytes.length % cap + 1 < cap then bytes.drop (bytes.length - bytes.length % cap) ++ [byte] else [] := by
  have hlt := Nat.mod_lt bytes.length hcap
  have hle := Nat.mod_le bytes.length cap
  rw [List.length_append, List.length_singleton]
  split
  · have hmod : (bytes.length + 1) % cap = bytes.length % cap + 1 := by
      rw [← Nat.mod_add_mod, Nat.mod_eq_of_lt ‹_›]
    rw [hmod, Nat.add_sub_add_right, List.drop_append_of_le_length (Nat.sub_le _ _)]
  · have hmod : (bytes.length + 1) % cap = 0 := by
      rw [← Nat.mod_add_mod, show bytes.length % cap + 1 = cap by omega, Nat.mod_self]
    rw [hmod]
    exact List.drop_eq_nil_of_le (by simp)

theorem occupancy_of_visible_eq_drop {cap : Nat} (h : visible s = bytes.drop (bytes.length - bytes.length % cap)) :
    occupancy s = bytes.length % cap := by
  rw [← visible_length, h, List.length_drop, Nat.sub_sub_self (Nat.mod_le _ _)]

/-- From an empty buffer, ordinary bytes show their last `k mod KBUF_CAP` (R109), by induction on the pushes. -/
theorem visible_pushAll_ordinary (h : s.Inv) (ht : s.term = false) (hempty : s.head = s.tail)
    (hb : ∀ b ∈ bytes, b ≠ intByte) :
    visible (pushAll bytes s) = bytes.drop (bytes.length - bytes.length % s.cfg.kbufCap) := by
  induction bytes using List.reverseRecOn with
  | nil => exact visible_of_head_eq_tail hempty
  | append_singleton bytes byte ih =>
    obtain ⟨hbytes, hbyte⟩ := List.forall_mem_append.1 hb
    obtain ⟨h', ht'⟩ := pushAll_ordinary_inv h ht hbytes
    have hshown := ih hbytes
    rw [pushAll_concat, visible_push_ordinary h' ht' (hbyte byte List.mem_cons_self), pushAll_cfg,
      occupancy_of_visible_eq_drop hshown, hshown, drop_concat_mod bytes byte (Nat.zero_lt_of_lt h.head_lt)]

/-- Settles O50: what the pushes show, and its length. -/
theorem overflowKeepsLastModuloCapacity : Obligations.OverflowKeepsLastModuloCapacity := by
  intro bytes s h ht hempty hb
  have hshown := visible_pushAll_ordinary h ht hempty hb
  exact ⟨hshown, occupancy_of_visible_eq_drop hshown⟩

end Sys2Proof.Machine
end

section
/-! The terminate check (R66, R119): it comes before the checks of `pc` and before the fetch. -/

namespace Sys2Proof.Machine

variable {s : State}

theorem engineCycle_of_term (h : s.term = true) : engineCycle s = .next (terminate s) := by
  have hissue : issue s = .error (.next (terminate s)) := if_pos h
  rw [engineCycle, hissue]

theorem not_fetches_of_term (h : s.term = true) : ¬ fetches s := by
  rintro ⟨hterm, -⟩
  simp [h] at hterm

/-- Settles O26: the cycle is its first check, and accesses memory only where it gets to its fetch. -/
theorem terminateCheckedFirst : Obligations.TerminateCheckedFirst := by
  rintro s ⟨hr, hn⟩ ht
  have hcycle : engineCycle (dropTurn s) = .next (terminate (dropTurn s)) := engineCycle_of_term ht
  exact ⟨(step_engine hr hn).trans hcycle, cycleAccesses_unfetched (not_fetches_of_term ht)⟩

end Sys2Proof.Machine
end

section
/-! Write protection over a step (R149, R35): a store leaves every protected cell alone, whatever the form of memory, and so
does an instruction, an engine cycle and a push. -/

namespace Sys2Proof.Machine

variable {s t : State} {i : Instr} {addr x : Nat} {v : Int}

/-- A store leaves a protected cell alone, be it the cell stored to or another (R35). -/
theorem storeCell_cell_protected (hx : writeDiscarded s.cfg x = true) : (storeCell addr v s).cell x = s.cell x := by
  by_cases hsame : x = addr
  · rw [storeCell_discarded (hsame ▸ hx)]
  · exact storeCell_cell_other hsame

theorem exec_cell_protected (h : exec i s = .next t) (hx : writeDiscarded s.cfg x = true) : t.cell x = s.cell x := by
  obtain ⟨a, c, -, -, rfl⟩ | ⟨b, c, -, -, rfl⟩ | ⟨b, c, -, -, rfl⟩ | ⟨a, b, c, -, -, -, rfl⟩ := exec_next h
  · simp
  · rw [advance_cell, storeCell_cell_protected (by simpa using hx)]
    simp
  · rw [advance_cell, clearIrq_cell, storeCell_cell_protected hx]
  · rw [branch_cell, storeCell_cell_protected hx]

/-- Settles O37: an instruction leaves a protected cell alone, and a step that performs none writes no memory. -/
theorem protectedCellsNeverChange : Obligations.ProtectedCellsNeverChange := by
  intro s t x hprotect hbase h
  obtain ⟨i, -, he⟩ | ⟨-, ⟨byte, -, rfl⟩ | ⟨-, rfl | ⟨cause, -, rfl⟩⟩⟩ := step_cases h
  · exact exec_cell_protected (s := dropTurn s) he (writeDiscarded_iff.2 ⟨hprotect, hbase⟩)
  all_goals simp

end Sys2Proof.Machine
end

section
/-! The interrupt flag is consumed once (R146, R92, R94): IN and IRQ as their effect on the flag and on the cell stored to,
and what `pop` finds after an interrupt byte. -/

namespace Sys2Proof.Machine

variable {s t : State} {i : Instr} {b : Nat}

/-- An instruction keeps memory in its canonical form. -/
theorem exec_wf (hm : Memory.wf s.cfg s.mem = true) (h : exec i s = .next t) : Memory.wf t.cfg t.mem = true := by
  obtain ⟨a, c, -, -, rfl⟩ | ⟨b, c, -, hb, rfl⟩ | ⟨b, c, -, hb, rfl⟩ | ⟨a, b, c, -, -, hb, rfl⟩ := exec_next h
  · exact hm
  · have hpop : Memory.wf (pop (clearIrq s)).2.cfg (pop (clearIrq s)).2.mem = true := by simpa using hm
    simpa using storeCell_wf hpop hb
  · simpa using storeCell_wf hm hb
  · simpa using storeCell_wf hm hb

theorem exec_inp_clears_irq (hb : b < memSize) (c : Int) (s : State) :
    ∃ t, exec (.inp b c) s = .next t ∧ t.irq = false :=
  ⟨_, exec_inp hb c s, by simp⟩

theorem exec_irq_clears_irq (hb : b < memSize) (c : Int) (s : State) :
    ∃ t, exec (.irq b c) s = .next t ∧ t.irq = false :=
  ⟨_, exec_irq hb c s, rfl⟩

/-- What the cell an instruction stores to holds afterwards, by whether the store is discarded (R35, R38). -/
theorem exec_cell_target (hm : Memory.wf s.cfg s.mem = true) (h : exec i s = .next t) (htarget : storeTarget i = some b) :
    (¬ (s.cfg.writeProtect = true ∧ s.cfg.tableBase ≤ b) → t.cell b = storeValue i s) ∧
      (s.cfg.writeProtect = true ∧ s.cfg.tableBase ≤ b → t.cell b = s.cell b) :=
  ⟨fun hlands => (exec_cell hm h b).trans (if_pos ⟨htarget, writeDiscarded_eq_false_iff.2 hlands⟩),
    fun hdiscarded => exec_cell_protected h (writeDiscarded_iff.2 hdiscarded)⟩

/-- After an interrupt byte below the threshold, `pop` finds the byte 3 (R103, R106, R110). -/
theorem pop_push_int_under (h : s.Inv) (ht : s.term = false) (hn : s.cnt + 1 ≤ s.cfg.intThreshold) :
    (pop (push intByte s)).1 = some intByte := by
  obtain ⟨-, -, hcap, -⟩ := h.cfg_ok
  have hne : nextSlot s.cfg 0 ≠ 0 := by
    rw [nextSlot_eq (by omega)]
    split <;> omega
  have hslot : 0 < s.buf.length := by rw [h.buf_len]; omega
  simp [push_int_under ht hn, pop, hne, hslot]

/-- Settles O52: IN finds the byte 3 and clears the flag the interrupt byte set; IRQ stores the flag and clears it. -/
theorem interruptFlagConsumedOnce : Obligations.InterruptFlagConsumedOnce := by
  intro s b b' c c' h hn hwf hwf'
  obtain ⟨hb, -⟩ := wellFormed_inp.1 hwf
  obtain ⟨hb', -⟩ := wellFormed_irq.1 hwf'
  have ht : s.term = false := Bool.eq_false_iff.2 (h.term_iff.not.2 (by omega))
  have hm : Memory.wf (push intByte s).cfg (push intByte s).mem = true := by simpa using h.mem_ok
  constructor
  · obtain ⟨t, hin, hclear⟩ := exec_inp_clears_irq hb c (push intByte s)
    obtain ⟨u, hirq, hclear'⟩ := exec_irq_clears_irq hb' c' t
    have hbyte : storeValue (.inp b c) (push intByte s) = 3 := by
      rw [storeValue, pop_push_int_under h ht hn]
      rfl
    have hflag : storeValue (.irq b' c') t = 0 := by simp [storeValue, hclear, flagCell]
    obtain ⟨hcfg, -⟩ := instructionRegisterFrame _ _ t hin
    obtain ⟨hstored, hkept⟩ := exec_cell_target hm hin rfl
    obtain ⟨hstored', hkept'⟩ := exec_cell_target (exec_wf hm hin) hirq rfl
    rw [push_cfg] at hstored hkept
    rw [hcfg, push_cfg] at hstored' hkept'
    have hbefore : s.cfg.writeProtect = true ∧ s.cfg.tableBase ≤ b' → t.cell b' = s.cell b' := fun hx =>
      (exec_cell_protected hin (by rw [push_cfg, writeDiscarded_iff.2 hx])).trans (push_cell intByte s b')
    exact ⟨t, u, hin, hclear, fun hx => (hstored hx).trans hbyte, fun hx => (hkept hx).trans (push_cell intByte s b),
      hirq, hclear', fun hx => (hstored' hx).trans hflag, fun hx => (hkept' hx).trans (hbefore hx)⟩
  · obtain ⟨t, hirq, hclear⟩ := exec_irq_clears_irq hb' c' (push intByte s)
    have hflag : storeValue (.irq b' c') (push intByte s) = 1 := by simp [storeValue, push_int_under ht hn, flagCell]
    obtain ⟨hstored, hkept⟩ := exec_cell_target hm hirq rfl
    rw [push_cfg] at hstored hkept
    exact ⟨t, hirq, hclear, fun hx => (hstored hx).trans hflag, fun hx => (hkept hx).trans (push_cell intByte s b')⟩

end Sys2Proof.Machine
end

section
/-! More than `INT_THRESHOLD` interrupt bytes in a row (R148, R104): along a run that delivers no other byte, the count of
interrupt bytes only grows, until it sets `term`. -/

namespace Sys2Proof.Machine

variable {s t : State} {n : Nat}

/-! ## Runs, step by step -/

theorem runFor_succ_next (h : runFor (n + 1) s = .next t) : ∃ u, step s = .next u ∧ runFor n u = .next t := by
  rw [runFor] at h
  cases hs : step s with
  | next u => exact ⟨u, rfl, by simpa [hs] using h⟩
  | fault r => simp [hs] at h
  | refused r => simp [hs] at h

theorem runFor_term (h : runFor n s = .next t) (hterm : s.term = true) : t.term = true := by
  induction n generalizing s with
  | zero => cases h; exact hterm
  | succ n ih =>
    obtain ⟨u, hstep, hrun⟩ := runFor_succ_next h
    exact ih hrun (terminateIsNeverCleared s u hstep hterm)

/-- A step takes its own turn off those that are counted (R5). -/
theorem interruptsIn_succ (h : step s = .next t) :
    interruptsIn (n + 1) s = interruptsIn n t + if nextTurn s = .capture intByte then 1 else 0 := by
  by_cases hn : s.turns.next = .capture intByte <;> simp [interruptsIn, step_turns h, nextTurn, hn]

theorem onlyInterruptsIn_succ (h : step s = .next t) :
    onlyInterruptsIn (n + 1) s = true ↔
      (nextTurn s = .engine ∨ nextTurn s = .capture intByte) ∧ onlyInterruptsIn n t = true := by
  simp [onlyInterruptsIn, step_turns h, nextTurn]

/-! ## The count -/

/-- An interrupt byte leaves `term` set, or is counted and the count is within the threshold (R104). -/
theorem push_int_term_or_counts (s : State) :
    (push intByte s).term = true ∨
      (push intByte s).cnt = s.cnt + 1 ∧ (push intByte s).cnt ≤ s.cfg.intThreshold := by
  obtain ⟨ht, e⟩ | ⟨-, -, -, e⟩ | ⟨-, -, hunder, e⟩ | ⟨-, hne, -⟩ := push_cases intByte s
  · exact .inl (by rw [e, ht])
  · exact .inl (by rw [e])
  · exact .inr (by rw [e]; exact ⟨rfl, not_lt.1 hunder⟩)
  · exact absurd rfl hne

/-- From any count, interrupt bytes that take it past the threshold set `term`, by induction on the run: an engine cycle,
an IN among them, leaves the count alone, and an interrupt byte adds one (R104, R111). -/
theorem runFor_interrupts_set_term (h : runFor n s = .next t) (honly : onlyInterruptsIn n s = true)
    (hsome : 0 < interruptsIn n s) (hover : s.cfg.intThreshold < s.cnt + interruptsIn n s) : t.term = true := by
  induction n generalizing s with
  | zero => exact absurd hsome (by simp [interruptsIn])
  | succ n ih =>
    obtain ⟨u, hstep, hrun⟩ := runFor_succ_next h
    obtain ⟨hturn, honly⟩ := (onlyInterruptsIn_succ hstep).1 honly
    rw [interruptsIn_succ hstep] at hsome hover
    obtain ⟨hr, -⟩ := step_next hstep
    obtain hn | hn := hturn
    · obtain ⟨hcnt, -⟩ := engineLeavesCaptureState s u ⟨hr, hn⟩ hstep
      have hcfg : u.cfg = s.cfg := engineCycle_cfg (s := dropTurn s) ((step_engine hr hn).symm.trans hstep)
      simp only [hn, reduceCtorEq, if_false, Nat.add_zero] at hsome hover
      exact ih hrun honly hsome (by rwa [hcfg, hcnt])
    · cases (step_capture hr hn).symm.trans hstep
      obtain hterm | ⟨hcnt, hle⟩ := push_int_term_or_counts (dropTurn s)
      · exact runFor_term hrun hterm
      · rw [if_pos hn] at hover
        rw [dropTurn_cnt] at hcnt
        rw [dropTurn_cfg] at hle
        exact ih hrun honly (by omega) (by rw [push_cfg, dropTurn_cfg]; omega)

/-- Settles O53: the run's interrupt bytes alone take the count past the threshold, and with `term` set a cycle does
nothing but end the run. -/
theorem consecutiveInterruptsTerminate : Obligations.ConsecutiveInterruptsTerminate := by
  intro n s t h honly hover
  have hterm : t.term = true := runFor_interrupts_set_term h honly (by omega) (by omega)
  refine ⟨hterm, fun hnext => ?_⟩
  obtain ⟨hstep, -⟩ := terminateCheckedFirst t hnext hterm
  exact ⟨_, hstep, rfl⟩

end Sys2Proof.Machine
end

section
/-! Memory after boot (R141, R142): the launches that are refused and the one that is not, and what the cells past the
image read as. -/

namespace Sys2Proof.Machine

variable {cfg : Config} {image : List Int}

/-- A launch that meets its premise is the release with the image's memory (R141). -/
theorem boot_of_premise (hcfg : cfg.wf) (hlen : image.length ≤ cfg.tableBase)
    (hfit : ∀ v ∈ image, fitsCell cfg.cellW v) :
    boot cfg image = .ok (State.atRelease cfg (imageMemory cfg 0 image)) := by
  rw [boot, if_neg (not_not.2 hcfg), if_neg (not_lt.2 hlen), if_neg (not_not.2 hfit)]

/-- Settles O9: the refusals of a launch, in the order in which it tests for them. -/
theorem launchRefusedBeyondItsPremise : Obligations.LaunchRefusedBeyondItsPremise := by
  intro cfg image hcfg
  constructor
  · intro hlong
    rw [boot, if_neg (not_not.2 hcfg), if_pos hlong]
  · rintro hlen ⟨v, hv, hunfit⟩
    rw [boot, if_neg (not_not.2 hcfg), if_neg (not_lt.2 hlen), if_pos fun hfit => hunfit (hfit v hv)]

/-- An image's memory lists nothing past the image. -/
theorem read_imageMemory_past {k x : Nat} (h : k + image.length ≤ x) :
    Memory.read cfg (imageMemory cfg k image) x = unlistedCell cfg x := by
  induction image generalizing k with
  | nil => rfl
  | cons v vs ih =>
    rw [List.length_cons] at h
    rw [imageMemory, read_entry_append_other (by omega)]
    exact ih (by omega)

theorem unlistedCell_below_table {x : Nat} (h : x < cfg.tableBase) : unlistedCell cfg x = 0 :=
  if_neg fun ⟨hbase, _⟩ => absurd hbase (not_le.2 h)

theorem unlistedCell_table {i : Nat} (h : i ≤ 255) : unlistedCell cfg (cfg.tableBase + i) = i := by
  have hinside : cfg.tableBase ≤ cfg.tableBase + i ∧ cfg.tableBase + i < cfg.tableBase + 256 := by omega
  rw [unlistedCell, if_pos hinside, Nat.add_sub_cancel_left]

theorem unlistedCell_above_table {x : Nat} (h : cfg.tableBase + 256 ≤ x) : unlistedCell cfg x = 0 :=
  if_neg fun ⟨_, hend⟩ => absurd hend (not_lt.2 h)

/-- Settles O7: the image's cells are read from its list, and every cell past them as unlisted, which is the table and
zeros around it. -/
theorem bootMemoryHoldsImageAndTable : Obligations.BootMemoryHoldsImageAndTable := by
  intro cfg image hcfg hlen hfit
  have hboot := boot_of_premise hcfg hlen hfit
  have hpast : ∀ x, image.length ≤ x →
      (State.atRelease cfg (imageMemory cfg 0 image)).cell x = unlistedCell cfg x :=
    fun x hx => read_imageMemory_past (by omega)
  refine ⟨_, hboot, fun k hk => boot_cell hboot hk, fun k hk hbase => ?_, fun i hi => ?_, fun k hk _ => ?_⟩
  · rw [hpast k hk, unlistedCell_below_table hbase]
  · rw [hpast _ (by omega), unlistedCell_table hi]
  · rw [hpast k (by omega), unlistedCell_above_table hk]

end Sys2Proof.Machine
end

section
/-! The branch test (R83): a 24-bit word is zero or negative exactly when its top bit is set or all its bits are zero.
-/

namespace Sys2Proof.Machine

theorem toInt_nonpos_iff (d : BitVec 24) : d.toInt ≤ 0 ↔ d.getLsbD 23 = true ∨ d = 0 := by
  have hsign : d.getLsbD 23 = true ↔ d.toInt < 0 := by
    rw [← decide_eq_true_iff (p := d.toInt < 0), ← BitVec.msb_eq_toInt, BitVec.msb_eq_getLsbD_last]
  have hzero : d = 0 ↔ d.toInt = 0 := BitVec.toInt_inj.symm
  rw [hsign, hzero, le_iff_lt_or_eq]

theorem ofInt_sub (n : Nat) (x y : Int) : BitVec.ofInt n (x - y) = BitVec.ofInt n x - BitVec.ofInt n y :=
  BitVec.eq_of_toInt_eq (by simp [BitVec.toInt_sub])

/-- Settles O15: the result is the value of the 24-bit difference (O13), so its sign is that word's top bit. -/
theorem branchTestReadsTheDifference : Obligations.BranchTestReadsTheDifference := by
  intro x y
  obtain ⟨hresult, -⟩ := subtractorIs24BitTwosComplement
  rw [branchTaken, decide_eq_true_iff, hresult, ← ofInt_sub, toInt_nonpos_iff]

end Sys2Proof.Machine
end

section
/-! The port forms (R90, R92, R94): result, completion and frame of OUT, IN and IRQ. -/

namespace Sys2Proof.Machine

variable {s : State} {b x : Nat} {v : Int}

/-- Memory after a store, read cell by cell (R35). -/
theorem read_storeCell (hm : Memory.wf s.cfg s.mem = true) :
    Memory.read s.cfg (storeCell b v s).mem x =
      if x = b ∧ ¬ (s.cfg.writeProtect = true ∧ s.cfg.tableBase ≤ b) then v else s.cell x := by
  have hcell := storeCell_cell (addr := b) (x := x) (v := v) hm
  rw [State.cell, storeCell_cfg] at hcell
  simpa only [writeDiscarded_eq_false_iff] using hcell

/-- Settles O17: the byte is the low eight bits of the cell. -/
theorem outResult : Obligations.OutResult := by
  intro s a c hwf
  exact ⟨lo8 (s.cell a), lo8_toNat _, exec_out (wellFormed_out.1 hwf) c s⟩

/-! What IN presents for its store (R92, R107). -/

theorem inputCell_pop_empty (h : s.head = s.tail) : inputCell (pop s).1 = 16777215 := by
  rw [pop, if_pos h]
  rfl

theorem inputCell_pop_byte (h : s.head ≠ s.tail) (hslot : s.tail < s.buf.length) :
    ∃ byte : Byte, s.buf[s.tail]? = some byte ∧ inputCell (pop s).1 = byte.toNat := by
  refine ⟨s.buf[s.tail], List.getElem?_eq_getElem hslot, ?_⟩
  rw [pop, if_neg h, List.getD_eq_getElem _ _ hslot]
  rfl

/-- Settles O18: IN stores what `pop` answers, in the state that `pop` leaves with `irq` cleared. -/
theorem inResult : Obligations.InResult := by
  intro s b c hwf hm hslot
  obtain ⟨hb, -⟩ := wellFormed_inp.1 hwf
  refine ⟨inputCell (pop s).1, (storeCell b (inputCell (pop s).1) s).mem, ?_, inputCell_pop_empty,
    fun h => inputCell_pop_byte h hslot, fun x => read_storeCell hm⟩
  rw [exec_inp hb, pop_clearIrq, storeCell_eq, storeCell_eq, pop_state]
  rfl

/-- Settles O19: IRQ stores the flag as a cell and clears it. -/
theorem irqResult : Obligations.IrqResult := by
  intro s b c hwf hm
  obtain ⟨hb, -⟩ := wellFormed_irq.1 hwf
  refine ⟨(storeCell b (flagCell s.irq) s).mem, ?_, fun x => read_storeCell hm⟩
  rw [exec_irq hb, storeCell_eq]
  rfl

end Sys2Proof.Machine
end

section
/-! The order of the checks (R120): the step each of them ends, by the cause it records, or by the refusal that stands
for a negative operand without `NEG_OPERAND_FAULT` (R71). -/

namespace Sys2Proof.Machine

variable {s : State} {r : Reject}

theorem issue_pcRange (ht : s.term = false) (hpc : s.pc < 0 ∨ 16777216 ≤ s.pc) :
    issue s = .error (.next (raiseFault .pcRange s)) := by
  obtain ⟨hterm, -⟩ | ⟨-, -, e⟩ | ⟨-, _, -⟩ | ⟨-, _, _, -⟩ := issue_cases s
  · simp [ht] at hterm
  · exact e
  · omega
  · omega

/-- An engine's step that a check ends is that end (R65). -/
theorem step_of_issue_error {ended : Result} (hnext : engineNext s) (h : issue (dropTurn s) = .error ended) :
    step s = ended := by
  rw [step_engine hnext.1 hnext.2, engineCycle, h]

/-- An engine's step that fetches a triple the decoder rejects ends as the rejection says (R70, R71). -/
theorem step_rejected (hnext : engineNext s) (hf : fetches s) (hd : decode (fetch s) = .error r) :
    step s = rejected r (dropTurn s) :=
  step_of_issue_error hnext (issue_rejected (s := dropTurn s) hf hd)

theorem rejected_aNeg (h : s.cfg.negOperandFault = true) : rejected .aNeg s = .next (raiseFault .aNeg s) := if_pos h

theorem rejected_bNeg (h : s.cfg.negOperandFault = true) : rejected .bNeg s = .next (raiseFault .bNeg s) := if_pos h

theorem rejected_aNeg_refused (h : s.cfg.negOperandFault = false) : rejected .aNeg s = .refused .negativeA :=
  if_neg (Bool.eq_false_iff.1 h)

theorem rejected_bNeg_refused (h : s.cfg.negOperandFault = false) : rejected .bNeg s = .refused .negativeB :=
  if_neg (Bool.eq_false_iff.1 h)

/-- Settles O28: the two checks of `pc`, then the decoder's four rejections (O5) of the triple fetched. -/
theorem faultPriorityOrder : Obligations.FaultPriorityOrder := by
  intro s hnext ht
  refine ⟨fun hpc => ?_, fun hpc => ?_, fun h0 h1 => ?_⟩
  · exact step_of_issue_error hnext (issue_pcRange (s := dropTurn s) ht hpc)
  · exact step_of_issue_error hnext (issue_fetchRange (s := dropTurn s) ht hpc)
  · obtain ⟨-, haHigh, hbHigh, haNeg, hbNeg⟩ := onlyOutOfRangeOperandsAreRejected (fetch s)
    have hf : fetches s := ⟨ht, h0, h1⟩
    refine ⟨fun ha => ?_, fun ha hb => ?_, fun ha hb hneg => ?_, fun ha ha' hb hneg => ?_⟩
    · exact step_rejected hnext hf (haHigh ha)
    · exact step_rejected hnext hf (hbHigh ha hb)
    · exact (step_rejected hnext hf (haNeg ha hb)).trans (rejected_aNeg (s := dropTurn s) hneg)
    · exact (step_rejected hnext hf (hbNeg ha ha' hb)).trans (rejected_bNeg (s := dropTurn s) hneg)

/-- Settles O29: the same two rejections, with the parameter off. -/
theorem negativeOperandRefusedInAlternate : Obligations.NegativeOperandRefusedInAlternate := by
  intro s hnext ht h0 h1 hneg
  obtain ⟨-, -, -, haNeg, hbNeg⟩ := onlyOutOfRangeOperandsAreRejected (fetch s)
  have hf : fetches s := ⟨ht, h0, h1⟩
  constructor
  · intro ha hb
    exact (step_rejected hnext hf (haNeg ha hb)).trans (rejected_aNeg_refused (s := dropTurn s) hneg)
  · intro ha ha' hb
    exact (step_rejected hnext hf (hbNeg ha ha' hb)).trans (rejected_bNeg_refused (s := dropTurn s) hneg)

end Sys2Proof.Machine
end

section
/-! The steps that answer a fault because the run is over (R74), and which runs there are (R5): a machine takes
the moves its schedule lists, in order. -/

namespace Sys2Proof.Machine

variable {s t : State} {moves : List Turn} {k n : Nat}

/-- Settles O33: a running machine has a next state or a refused cycle (O32), and a terminal `run` answers its fault. -/
theorem stepStopsExactlyWhenRunIsOver : Obligations.StepStopsExactlyWhenRunIsOver := by
  intro s
  constructor
  · rintro ⟨f, hfault⟩ hr
    obtain ⟨t, hnext⟩ | ⟨-, ⟨r, hrefused⟩, -⟩ := runningMachineIsNeverStuck s hr
    · cases hfault.symm.trans hnext
    · cases hfault.symm.trans hrefused
  · intro hr
    cases h : s.run with
    | running => exact absurd h hr
    | halted => exact ⟨.runHalted, by rw [step, h]⟩
    | faulted => exact ⟨.runFaulted, by rw [step, h]⟩
    | terminated => exact ⟨.runTerminated, by rw [step, h]⟩

/-- A run takes its steps off the front of the schedule's list (R5). -/
theorem runFor_turns (h : runFor n s = .next t) (hs : s.turns = ⟨moves, k⟩) (hn : n ≤ moves.length) :
    t.turns = ⟨moves.drop n, k⟩ := by
  induction n generalizing s moves with
  | zero => cases h; exact hs
  | succ n ih =>
    cases moves with
    | nil => cases hn
    | cons move rest =>
      obtain ⟨u, hstep, hrun⟩ := runFor_succ_next h
      have hu : u.turns = ⟨rest, k⟩ := by rw [step_turns hstep, hs, rest_listed]
      exact ih hrun hu (Nat.le_of_succ_le_succ hn)

/-- Settles O56: the schedule that lists the moves; after `n` steps of it the coming turn is the move at place `n`. -/
theorem everyInterleavingIsARun : Obligations.EveryInterleavingIsARun := by
  intro moves s
  refine ⟨⟨moves, 0⟩, fun n hn t h hr => ?_⟩
  have hturns : t.turns = ⟨moves.drop n, 0⟩ := runFor_turns h rfl hn.le
  have hmove : nextTurn t = moves[n] := by
    rw [nextTurn, hturns, List.drop_eq_getElem_cons hn, next_listed]
  cases hm : moves[n] with
  | engine => exact step_engine hr (hmove.trans hm)
  | capture byte => exact step_capture hr (hmove.trans hm)

end Sys2Proof.Machine
end
